-- ==== Sys2Proof/Word.lean ====
section
/-! DEFINITION. The widths of the CODEC: bytes of the wire, 16-bit register words, 32-bit values and the
57-bit scaled value (00_scope.md R6; 10_state.md R18), and the register index 0 to 43 (R5, R31). -/

namespace Sys2Proof

/-- A byte of a wire frame (00_scope.md R5). -/
abbrev Byte := BitVec 8

/-- A raw 16-bit register value (00_scope.md R5, 41_framer.md R84). -/
abbrev Half := BitVec 16

/-- A 32-bit number: a command word (R50), a decoded value (R95), a statistics field (R13). -/
abbrev Word := BitVec 32

/-- The scaled value `PHYS`, 57 bits, 24 of them fraction bits (42_decode.md R96). -/
abbrev Phys := BitVec 57

/-- `NREG`, the number of register indices (00_scope.md R5). -/
abbrev nreg : Nat := 44

/-- `RF`, the number of fraction bits of a reciprocal (00_scope.md R5). -/
abbrev rf : Nat := 24

/-- A register index `n`, 0 to 43 (20_memory.md R31). -/
abbrev Index := Fin nreg

end Sys2Proof
end

