-- ==== Sys2Proof/Syntax.lean ====
section
/-! DEFINITION. The five commands (30_encoding.md R51), one constructor per row of opcode_table.json. The operand fields
have the widths of the command word's fields `A` and `V` (R50), which are used whole (R52), so that no term of `Instr` is
an ill-formed command. An index above 0x2B is a legal encoding (R53 (c)); the operation itself checks it. -/

namespace Sys2Proof

/-- A command of the CODEC (30_encoding.md R51). -/
inductive Instr where
  /-- `RDW r`: read transaction on wire byte `r` (41_framer.md R85). -/
  | rdw (r : Byte)
  /-- `WRW r, v`: write transaction of `v` to wire byte `r` (41_framer.md R87). -/
  | wrw (r : Byte) (v : Half)
  /-- `RDREG n`: raw read of register index `n` (42_decode.md R90). -/
  | rdreg (n : Byte)
  /-- `DECODE n`: read, combine, track and scale register index `n` (42_decode.md R97). -/
  | decode (n : Byte)
  /-- `POLLALL`: decode every register index once, ascending (43_minmax_poll.md R108). -/
  | pollall
  deriving DecidableEq, Repr

end Sys2Proof
end

