-- ==== Sys2Proof/Decode.lean ====
section
/-! DEFINITION. The command word (30_encoding.md R50 to R53, R65): the decoder, total on every 32-bit word and rejecting
by name; the encoder, written from the encoding strings of R65; the opcode map of R51 as rows of match and mask; and the
pseudo-command `WRREG` (R59). -/

namespace Sys2Proof

/-- Why a word selects no operation (30_encoding.md R53 (a), (b)). The block reports all four alike, as `ILLEGAL_CMD`. -/
inductive IllegalWord where
  /-- `OP` is 0x0 or 0x6 to 0xF. -/
  | opcode
  /-- `Z` is not zero. -/
  | zField
  /-- `V` is not zero where it must be. -/
  | vField
  /-- `A` is not zero in a POLLALL word. -/
  | aField
  deriving DecidableEq, Repr

/-- What a command word selects (30_encoding.md R51, R53). -/
inductive Decoded where
  | instr (i : Instr)
  | illegal (why : IllegalWord)
  deriving DecidableEq, Repr

/-- `OP`, bits 31:28 (30_encoding.md R50). -/
def opField (w : Word) : BitVec 4 := w.extractLsb' 28 4

/-- `Z`, bits 27:24. -/
def zField (w : Word) : BitVec 4 := w.extractLsb' 24 4

/-- `A`, bits 23:16. -/
def aField (w : Word) : Byte := w.extractLsb' 16 8

/-- `V`, bits 15:0. -/
def vField (w : Word) : Half := w.extractLsb' 0 16

/-- The operation, given that `V` must be zero (30_encoding.md R50: every operation but WRW). -/
def needZeroV (w : Word) (i : Instr) : Decoded :=
  if vField w = 0#16 then .instr i else .illegal .vField

/-- The decoder (30_encoding.md R51, R53). -/
def decodeWord (w : Word) : Decoded :=
  if zField w = 0#4 then
    if opField w = 0x1#4 then needZeroV w (.rdw (aField w))
    else if opField w = 0x2#4 then .instr (.wrw (aField w) (vField w))
    else if opField w = 0x3#4 then needZeroV w (.rdreg (aField w))
    else if opField w = 0x4#4 then needZeroV w (.decode (aField w))
    else if opField w = 0x5#4 then
      if aField w = 0#8 then needZeroV w .pollall else .illegal .aField
    else .illegal .opcode
  else .illegal .zField

/-- The decoder's answer as an option. -/
def Decoded.toOption : Decoded → Option Instr
  | .instr i => some i
  | .illegal _ => none

/-- The instruction that the decoder reads from a word numbered as spec/opcode_table.json numbers it: every command is one
32-bit word (30_encoding.md R50), so the table's bit numbers are the word's own. -/
def decodeTableWord (nbits w : Nat) : Option Instr :=
  (decodeWord (BitVec.ofNat 32 (w % 2 ^ nbits))).toOption

/-- The encoder, from the encoding strings of 30_encoding.md R65. -/
def encodeWord : Instr → Word
  | .rdw r => 0b00010000#8 ++ r ++ 0#16
  | .wrw r v => 0b00100000#8 ++ r ++ v
  | .rdreg n => 0b00110000#8 ++ n ++ 0#16
  | .decode n => 0b01000000#8 ++ n ++ 0#16
  | .pollall => 0b01010000000000000000000000000000#32

/-- The pseudo-command `WRREG n, v`, for `n` in 0 to 0x7F: `WRW (n << 1), v` (30_encoding.md R59). -/
def wrreg (n : BitVec 7) (v : Half) : Instr := .wrw (n.setWidth 8 <<< 1) v

/-- The five mnemonics of the opcode map. -/
inductive Mnemonic where
  | rdw | wrw | rdreg | decode | pollall
  deriving DecidableEq, Repr

/-- The mnemonic of a command. -/
def Instr.mnemonic : Instr → Mnemonic
  | .rdw _ => .rdw
  | .wrw _ _ => .wrw
  | .rdreg _ => .rdreg
  | .decode _ => .decode
  | .pollall => .pollall

/-- The `match` column of the opcode map (30_encoding.md R51). -/
def Mnemonic.matchWord : Mnemonic → Word
  | .rdw => 0x10000000#32
  | .wrw => 0x20000000#32
  | .rdreg => 0x30000000#32
  | .decode => 0x40000000#32
  | .pollall => 0x50000000#32

/-- The `mask` column of the opcode map (30_encoding.md R51). -/
def Mnemonic.mask : Mnemonic → Word
  | .rdw => 0xFF00FFFF#32
  | .wrw => 0xFF000000#32
  | .rdreg => 0xFF00FFFF#32
  | .decode => 0xFF00FFFF#32
  | .pollall => 0xFFFFFFFF#32

/-- 'A word `w` selects a row when `w & mask == match`' (30_encoding.md R51). -/
def Mnemonic.selectedBy (m : Mnemonic) (w : Word) : Bool := w &&& m.mask == m.matchWord

end Sys2Proof
end

