-- ==== Sys2Proof/Machine/Csum.lean ====
section
/-! DEFINITION. CSUM, the mod-256 checksum generator and the frame validator (40_checksum.md). Both are combinational. -/

namespace Sys2Proof.Machine

open Sys2Proof

/-- `sum(B)`, the sum of the bytes as an unbounded natural (00_scope.md R6). -/
def byteSum : List Byte → Nat
  | [] => 0
  | b :: bs => b.toNat + byteSum bs

/-- `csum8(B) = (0x100 - (sum(B) mod 256)) mod 256` (40_checksum.md R70). -/
def csum8 (bs : List Byte) : Byte := BitVec.ofNat 8 ((0x100 - byteSum bs % 256) % 256)

/-- `frame_ok([R0, R1, R2])`: the three received bytes sum to 0 mod 256, no address byte among them (40_checksum.md R72,
R74). -/
def frameOk (r0 r1 r2 : Byte) : Bool := byteSum [r0, r1, r2] % 256 == 0

end Sys2Proof.Machine
end

