-- ==== Sys2Proof/Machine/Address.lean ====
section
/-! DEFINITION. The device address that reset loads (10_state.md R12). -/

namespace Sys2Proof.Machine

open Sys2Proof

/-- The address that the base and the pins give: `(MCU_BASE + ADDR_SEL) mod 128` (10_state.md R12). -/
def addressOf (base : BitVec 7) (sel : BitVec 3) : BitVec 7 := base + sel.setWidth 7

end Sys2Proof.Machine
end

