-- ==== Sys2Proof/Config.lean ====
section
/-! DEFINITION. The parameters of the block that the spec leaves OPEN (00_scope.md R5, 10_state.md R19): the base of the
device address, the contents of the catalog LUT, and the fairness assumption on the transport. They are a record of plain
data, so that every claim is stated for every configuration. -/

namespace Sys2Proof

/-- One entry of the catalog LUT (10_state.md R15): `KNOWN`, `PAIR`, `BITF` and the 25-bit `RECIP`, which denotes
`RECIP / 2^24`. -/
structure LutEntry where
  known : Bool
  pair : Bool
  bitf : Bool
  recip : BitVec 25
  deriving DecidableEq, Repr

/-- The LUT's ROM image `CATALOG`: one entry per register index (10_state.md R15). -/
abbrev Catalog := Vector LutEntry nreg

/-- A scale of the document's catalog, 'signed floating-point or zero' (00_scope.md R9), as the exact fraction
`num / den`. -/
structure Scale where
  num : Int
  den : Nat
  deriving DecidableEq, Repr

/-- The OPEN parameters (00_scope.md R5). `transportLive` is no hardware value: it says whether one assumes that the
transport answers every request (92_eei_decisions.md D12), and no step reads it. -/
structure Config where
  mcuBase : BitVec 7
  catalog : Catalog
  transportLive : Bool
  deriving DecidableEq, Repr

/-- `LUT[n]`, a plain indexed ROM read that cannot fail (42_decode.md R91). -/
def Config.lut (c : Config) (n : Index) : LutEntry := c.catalog.get n

end Sys2Proof
end

