-- ==== Sys2Proof/WellFormed.lean ====
section
/-! DEFINITION. What is admitted as a configuration: the five conditions on a LUT entry (42_decode.md R93), one check
each, and the two rows that the document fixes (00_scope.md R5, 42_decode.md R92). Commands need no check: the operand
widths are in the type `Instr`. -/

namespace Sys2Proof

/-- R93 (a): `KNOWN = 0` implies `PAIR = 0`, `BITF = 0` and `RECIP = 2^24`. -/
def LutEntry.unknownIsDefault (e : LutEntry) : Bool :=
  e.known || (!e.pair && !e.bitf && e.recip == 0x1000000#25)

/-- R93 (b): not both `PAIR = 1` and `BITF = 1`. -/
def LutEntry.pairIsNotBitfield (e : LutEntry) : Bool := !(e.pair && e.bitf)

/-- R93 (c): `PAIR = 1` implies `n <= 42`. -/
def LutEntry.pairHasNext (n : Index) (e : LutEntry) : Bool := !e.pair || decide (n.val ≤ 42)

/-- R93 (d): `BITF = 0` implies `RECIP >= 1`. -/
def LutEntry.scaledHasReciprocal (e : LutEntry) : Bool := e.bitf || e.recip != 0#25

/-- R93 (e): `BITF = 1` implies `RECIP = 2^24`. -/
def LutEntry.bitfieldHasFiller (e : LutEntry) : Bool := !e.bitf || e.recip == 0x1000000#25

/-- All five conditions of R93 for the entry of index `n`. -/
def LutEntry.wf (n : Index) (e : LutEntry) : Bool :=
  e.unknownIsDefault && e.pairIsNotBitfield && e.pairHasNext n && e.scaledHasReciprocal && e.bitfieldHasFiller

/-- A catalog whose 44 entries satisfy R93. -/
def Catalog.wf (c : Catalog) : Bool := (List.finRange nreg).all fun n => (c.get n).wf n

/-- The row that the document fixes for index 0x04, `INPUT_VOLTAGE`, scale 32.0 (42_decode.md R92). -/
def LutEntry.inputVoltage : LutEntry := ⟨true, false, false, 0x0080000#25⟩

/-- The row that the document fixes for index 0x16, `WATT_SECONDS_IN`, scale −4.0 (42_decode.md R92). -/
def LutEntry.wattSecondsIn : LutEntry := ⟨true, true, false, 0x0400000#25⟩

/-- `CATALOG` is OPEN 'except two rows the document fixes' (00_scope.md R5). -/
def Catalog.hasDocumentRows (c : Catalog) : Bool :=
  c.get 0x04 == LutEntry.inputVoltage && c.get 0x16 == LutEntry.wattSecondsIn

/-- A configuration that is admitted (42_decode.md R93, 00_scope.md R5, 70_reset_and_hazards.md R137 (2)).
DEDUCED, safe: that the two document rows belong to the condition is notes/assumptions/8. -/
def Config.admitted (c : Config) : Bool := Catalog.wf c.catalog && Catalog.hasDocumentRows c.catalog

end Sys2Proof
end

