-- ==== Sys2Proof/Machine/Catalog.lean ====
section
/-! DEFINITION. How a LUT entry is made from a scale of the document's catalog (42_decode.md R94), the LUT word (30_encoding.md
R62), the classes of an index (R91) and the default catalog (R92). The default rows other than 0x04 and 0x16 are
PRESUMED: the spec marks them as general knowledge (93_implementation_defined.md G2); notes/assumptions/4. -/

namespace Sys2Proof

/-- An index with no catalog entry: `(KNOWN, PAIR, BITF, RECIP) = (0, 0, 0, 2^24)` (42_decode.md R91, R94). -/
def LutEntry.unknown : LutEntry := ⟨false, false, false, 0x1000000#25⟩

/-- `floor(2^24 / |s| + 1/2)` computed exactly (42_decode.md R94): `floor(a/b + 1/2) = (2a + b) / (2b)` with
`a = 2^24 * den` and `b = |num|`. -/
def Scale.recip (s : Scale) : Nat :=
  (2 * (2 ^ rf * s.den) + s.num.natAbs) / (2 * s.num.natAbs)

/-- 'A scale is representable when `1 <= RECIP <= 2^25 - 1`' (42_decode.md R94). -/
def Scale.representable (s : Scale) : Bool := decide (1 ≤ s.recip) && decide (s.recip ≤ 2 ^ 25 - 1)

/-- The LUT entry of a catalog entry with scale `s`; none where the scale is not representable, for such a catalog is not
admitted (42_decode.md R94). -/
def LutEntry.ofScale (s : Scale) : Option LutEntry :=
  if s.den = 0 then none
  else if s.num = 0 then some ⟨true, false, true, 0x1000000#25⟩
  else if s.representable then some ⟨true, decide (s.num < 0), false, BitVec.ofNat 25 s.recip⟩
  else none

/-- The LUT word, 28 bits (30_encoding.md R62). -/
def LutEntry.pack (e : LutEntry) : BitVec 28 :=
  BitVec.ofBool e.known ++ BitVec.ofBool e.pair ++ BitVec.ofBool e.bitf ++ e.recip

/-- The four classes of an index (42_decode.md R91). -/
inductive IndexClass where
  | unknown | scaled | pairedScaled | bitfield
  deriving DecidableEq, Repr

/-- The class that the flags of a LUT entry put an index in (42_decode.md R91). -/
def LutEntry.kindOfIndex (e : LutEntry) : IndexClass :=
  if e.known = false then .unknown
  else if e.bitf then .bitfield
  else if e.pair then .pairedScaled
  else .scaled

/-- A catalog with the given rows, every other index unknown (42_decode.md R92). -/
def Catalog.ofRows (rows : List (Index × LutEntry)) : Catalog :=
  Vector.ofFn fun n => (rows.lookup n).getD LutEntry.unknown

/-- The rows of scale of 42_decode.md R92: index and scale, the document's two rows first. -/
def defaultScales : List (Index × Scale) :=
  [(0x04, ⟨32, 1⟩), (0x16, ⟨-4, 1⟩),
   (0x01, ⟨0, 1⟩), (0x05, ⟨128, 1⟩), (0x06, ⟨2, 1⟩), (0x07, ⟨509, 2⟩), (0x08, ⟨128, 1⟩), (0x09, ⟨2, 1⟩)]
  ++ [(0x0D, ⟨32, 1⟩), (0x0E, ⟨32, 1⟩), (0x0F, ⟨1, 1⟩), (0x18, ⟨2, 1⟩), (0x19, ⟨2, 1⟩), (0x1A, ⟨128, 1⟩),
   (0x1B, ⟨128, 1⟩)]
  ++ [(0x1D, ⟨0, 1⟩), (0x1E, ⟨0, 1⟩), (0x20, ⟨1, 1⟩), (0x22, ⟨1, 1⟩), (0x23, ⟨1, 1⟩), (0x28, ⟨0, 1⟩), (0x2B, ⟨0, 1⟩)]

/-- The default catalog of 42_decode.md R92. -/
def defaultCatalog : Catalog :=
  Catalog.ofRows (defaultScales.filterMap fun row => (LutEntry.ofScale row.2).map fun e => (row.1, e))

/-- The default configuration: `MCU_BASE` = 0x58 (00_scope.md R5, 93_implementation_defined.md G1), the catalog of R92, and no
assumption on the transport. PRESUMED, unsafe: notes/assumptions/4. -/
def defaultConfig : Config := ⟨0x58#7, defaultCatalog, false⟩

end Sys2Proof
end

