-- ==== Sys2Proof/Machine/State.lean ====
section
/-! DEFINITION. The state of a CODEC instance (10_state.md R12 to R22), the records of its ports (30_encoding.md R60, R61,
R63, R64), the reasons a step stops, and the state after reset (R21). -/

namespace Sys2Proof.Machine

open Sys2Proof

/-- `STATUS` of a response entry (30_encoding.md R63). Codes 5 to 7 are never produced, so the type has five names. -/
inductive Status where
  | ok | csumErr | xportErr | illegalCmd | badIndex
  deriving DecidableEq, Repr

/-- `KIND` of a response entry (30_encoding.md R64). -/
inductive Kind where
  | none | raw | scaled | bitfield
  deriving DecidableEq, Repr

/-- The two errors of a bus transaction (60_exceptions.md R115): the transport answered `Fail`, or the three reply bytes
do not sum to zero. -/
inductive BusError where
  | transport
  | checksum
  deriving DecidableEq, Repr

/-- A response entry (30_encoding.md R60), field by field; `Entry.pack` gives the 224-bit record. -/
structure Entry where
  status : Status
  kind : Kind
  known : Bool
  pair : Bool
  last : Bool
  idx : BitVec 6
  waddr : Byte
  value : Word
  min : Word
  max : Word
  span : Word
  phys : Phys
  deriving DecidableEq, Repr

/-- A bus request `XREQ` (30_encoding.md R61): `rw` is true for a write then read, false for a single write. -/
structure Xreq where
  rw : Bool
  addr : BitVec 7
  txLen : BitVec 3
  rxLen : BitVec 2
  tx0 : Byte
  tx1 : Byte
  tx2 : Byte
  tx3 : Byte
  deriving DecidableEq, Repr

/-- An answer `XRSP` of the oracle (30_encoding.md R61, 41_framer.md R82): `ok` false is `Fail`; the bytes mean something
only when `ok` is true and the request was a write then read. -/
structure Xrsp where
  ok : Bool
  rx0 : Byte
  rx1 : Byte
  rx2 : Byte
  deriving DecidableEq, Repr

/-- The control state `PHASE` (10_state.md R17); `BUSY` is every phase but `idle`. -/
inductive Phase where
  | idle | xfer1 | xfer2 | respond
  deriving DecidableEq, Repr

/-- One entry of the statistics RAM (10_state.md R13). -/
structure StatEntry where
  min : Word
  max : Word
  deriving DecidableEq, Repr

/-- The statistics RAM `STAT` (10_state.md R13). -/
abbrev Stat := Vector StatEntry nreg

/-- The transient latches (10_state.md R18): none is architectural, each is written before it is read within one command. -/
structure Latches where
  /-- `CMD`, the latched command word. -/
  cmd : Word
  /-- `TXBUF[0..3]`. -/
  tx : Vector Byte 4
  /-- `RXBUF[0..2]`. -/
  rx : Vector Byte 3
  /-- `RAW_LO`, the word of the first read transaction. -/
  rawLo : Half
  /-- `RAW_HI`, the word of the second read transaction. -/
  rawHi : Half
  /-- `VALUE`, the decoded value. -/
  value : Word
  /-- `PHYS`, the scaled value. -/
  phys : Phys
  deriving DecidableEq, Repr

/-- What is seen at the ports, in the order of the merged timeline of 20_memory.md R40. -/
inductive Event where
  /-- `RESET` was asserted (70_reset_and_hazards.md R135). -/
  | reset
  /-- The word was accepted on `CMD` (10_state.md R17). -/
  | command (w : Word)
  /-- The request was handed to the transport on `XREQ`. -/
  | request (q : Xreq)
  /-- The answer arrived on `XRSP`. -/
  | answer (a : Xrsp)
  /-- The host took the entry from `RSP`. -/
  | entry (e : Entry)
  deriving DecidableEq, Repr

/-- The whole state of a CODEC instance and of what stands at its ports. -/
structure State where
  /-- The OPEN parameters (00_scope.md R5), the same throughout a run. -/
  cfg : Config
  /-- The level of the `RESET` pin (10_state.md R22): true while it is asserted. -/
  resetPin : Bool
  /-- The level of the three `ADDR_SEL` pins (10_state.md R12). -/
  addrSel : BitVec 3
  /-- The command words that the host presents on `CMD`, in order (10_state.md R22). -/
  cmdIn : List Word
  /-- The oracle's answers on `XRSP`, in order (41_framer.md R82). -/
  xrspIn : List Xrsp
  /-- How many entries the host is ready to take from `RSP` (70_reset_and_hazards.md R145). -/
  rspReady : Nat
  /-- `ADDR7`, the latched device address (10_state.md R12). -/
  addr7 : BitVec 7
  /-- `STAT` (10_state.md R13). -/
  stat : Stat
  /-- `PHASE` (10_state.md R17). -/
  phase : Phase
  /-- `POLL_IDX` (10_state.md R16). -/
  pollIdx : BitVec 6
  /-- The transient latches (10_state.md R18). -/
  lat : Latches
  /-- The request outstanding on `XREQ` (20_memory.md R38 (a)). -/
  xreq : Option Xreq
  /-- The entry valid on `RSP` (20_memory.md R40). -/
  rsp : Option Entry
  /-- The model's own record of the port events so far, oldest first (10_state.md R20: both output lists are observable).
  DESIGN CHOICE, safe: notes/assumptions/11. -/
  trace : List Event
  deriving DecidableEq, Repr

/-- The faults of the model. -/
inductive Fault where
  /-- Raised by `step` in a BUSY or IDLE state whose `PHASE`, `CMD`, `POLL_IDX` and ports do not fit together
  (`State.controlOk` is false). No run from reset reaches one. Safe: the model stops and nothing is claimed of such a
  state (notes/assumptions/9). -/
  | controlMismatch
  deriving DecidableEq, Repr

/-- The refusals of the model. -/
inductive Refusal where
  /-- Raised by the arm of an instruction that has no meaning yet; no arm of this model does. Safe. -/
  | notModelled (mnemonic : String)
  /-- Raised by `runBlock`, so by every command, when the catalog is not admitted (42_decode.md R93: 'A model should refuse
  (give no meaning to) a configuration that breaks one'). Safe (notes/assumptions/7). -/
  | catalogNotAdmitted
  deriving DecidableEq, Repr

/-- A statistics entry at reset, `{min=0xFFFF, max=0}` (10_state.md R13). -/
def StatEntry.atReset : StatEntry := ⟨0x0000FFFF#32, 0x00000000#32⟩

/-- The latches at reset: the spec states no value (10_state.md R21: 'unspecified; never read before written').
DESIGN CHOICE, unsafe: zero, notes/assumptions/5. -/
def Latches.atReset : Latches :=
  ⟨0#32, Vector.replicate 4 0#8, Vector.replicate 3 0#8, 0#16, 0#16, 0#32, 0#57⟩

/-- The state right after reset of a block with configuration `c` whose pins read `sel` (10_state.md R21,
70_reset_and_hazards.md R135), with nothing at the input ports. -/
def State.resetOf (c : Config) (sel : BitVec 3) : State where
  cfg := c
  resetPin := false
  addrSel := sel
  cmdIn := []
  xrspIn := []
  rspReady := 0
  addr7 := addressOf c.mcuBase sel
  stat := Vector.replicate nreg StatEntry.atReset
  phase := .idle
  pollIdx := 0#6
  lat := Latches.atReset
  xreq := none
  rsp := none
  trace := []

/-- The machine right after reset, with the default configuration and the pins at 7. PRESUMED and DESIGN CHOICE, unsafe:
notes/assumptions/4. -/
def State.reset : State := State.resetOf defaultConfig 7#3

end Sys2Proof.Machine
end

