-- ==== Sys2Proof/Machine/Flags.lean ====
section
/-! DEFINITION. The block has no flags and no condition codes (10_state.md R11): what an operation reports is wholly in its
response entry. This file holds the codes of `STATUS` and `KIND` (30_encoding.md R63, R64), the bit layouts of the port
records (R60, R61), and the entries of each outcome. -/

namespace Sys2Proof.Machine

open Sys2Proof

/-- The `STATUS` codes (30_encoding.md R63). -/
def Status.code : Status → BitVec 3
  | .ok => 0#3
  | .csumErr => 1#3
  | .xportErr => 2#3
  | .illegalCmd => 3#3
  | .badIndex => 4#3

/-- The `KIND` codes (30_encoding.md R64). -/
def Kind.code : Kind → BitVec 2
  | .none => 0#2
  | .raw => 1#2
  | .scaled => 2#2
  | .bitfield => 3#2

/-- The 224-bit response entry (30_encoding.md R60), bit 223 first. -/
def Entry.pack (e : Entry) : BitVec 224 :=
  0#7 ++ e.phys ++ e.span ++ e.max ++ e.min ++ e.value ++ 0#8 ++ e.waddr ++ 0#2 ++ e.idx
    ++ BitVec.ofBool e.last ++ BitVec.ofBool e.pair ++ BitVec.ofBool e.known ++ e.kind.code ++ e.status.code

/-- The 48-bit request record `XREQ` (30_encoding.md R61), bit 47 first. -/
def Xreq.pack (q : Xreq) : BitVec 48 :=
  q.tx3 ++ q.tx2 ++ q.tx1 ++ q.tx0 ++ 0#3 ++ q.rxLen ++ q.txLen ++ q.addr ++ BitVec.ofBool q.rw

/-- The 32-bit answer record `XRSP` (30_encoding.md R61), bit 31 first. -/
def Xrsp.pack (a : Xrsp) : BitVec 32 :=
  a.rx2 ++ a.rx1 ++ a.rx0 ++ 0#7 ++ BitVec.ofBool a.ok

/-- The fields of a received 32-bit answer record (30_encoding.md R61). DESIGN CHOICE, unsafe: bits 7:1, which the spec
gives as zero, are not looked at (notes/assumptions/21). -/
def Xrsp.unpack (w : BitVec 32) : Xrsp :=
  ⟨w.getLsbD 0, w.extractLsb' 8 8, w.extractLsb' 16 8, w.extractLsb' 24 8⟩

/-- `code(E)` of an error (41_framer.md R85): CSUM_ERR for ReadChecksumError, XPORT_ERR for TransportError. -/
def BusError.status : BusError → Status
  | .transport => .xportErr
  | .checksum => .csumErr

/-- An entry that carries no value: KIND NONE, every value field zero (30_encoding.md R60, R64). -/
def emptyEntry (st : Status) (idx : BitVec 6) (waddr : Byte) (last : Bool) : Entry where
  status := st
  kind := .none
  known := false
  pair := false
  last := last
  idx := idx
  waddr := waddr
  value := 0#32
  min := 0#32
  max := 0#32
  span := 0#32
  phys := 0#57

/-- The entry of a successful RDW or RDREG (41_framer.md R85, 42_decode.md R90). -/
def rawEntry (idx : BitVec 6) (waddr : Byte) (v : Half) : Entry :=
  { emptyEntry .ok idx waddr true with kind := .raw, value := v.setWidth 32 }

/-- The entry of a transaction `ans` on wire byte `waddr` that is the whole of a command: raw on success, else the error
(41_framer.md R85, 42_decode.md R90). -/
def readEntry (idx : BitVec 6) (waddr : Byte) : Except BusError Half → Entry
  | .ok v => rawEntry idx waddr v
  | .error e => emptyEntry e.status idx waddr true

end Sys2Proof.Machine
end

