-- ==== Sys2Proof/Machine/Operands.lean ====
section
/-! DEFINITION. The operand forms: a register index from a command field or from `POLL_IDX` (30_encoding.md R52, R53 (c)),
the one index-to-wire transform (20_memory.md R31), the address-plus-direction byte (R58), the split of a written value
(R55) and the assembly of a read one (R33, R56, R95). -/

namespace Sys2Proof.Machine

open Sys2Proof

/-- The index that the 8-bit operand `A` names, none when it is above 0x2B (30_encoding.md R53 (c)). -/
def indexOfByte (a : Byte) : Option Index :=
  if h : a.toNat < nreg then some ⟨a.toNat, h⟩ else none

/-- The index that `POLL_IDX` names; its range is 0 to 43 (10_state.md R16). -/
def indexOfPoll (p : BitVec 6) : Option Index :=
  if h : p.toNat < nreg then some ⟨p.toNat, h⟩ else none

/-- `IDX` and `POLL_IDX` hold an index in six bits (30_encoding.md R60, 10_state.md R16). -/
def idxBits (n : Index) : BitVec 6 := BitVec.ofNat 6 n.val

/-- `wire(n) = (n << 1) mod 256` (20_memory.md R31). -/
def wire (n : Nat) : Byte := BitVec.ofNat 8 ((n <<< 1) % 256)

/-- `index(r) = r >> 1` (20_memory.md R31). -/
def indexOfWire (r : Byte) : Nat := r.toNat >>> 1

/-- The address-plus-direction byte `ADDR7 << 1`, bit 0 zero (30_encoding.md R58, 10_state.md R12). -/
def dirByte (addr7 : BitVec 7) : Byte := addr7.setWidth 8 <<< 1

/-- `lsb = v & 0xFF` (30_encoding.md R55). -/
def lsbOf (v : Half) : Byte := (v &&& 0xFF#16).setWidth 8

/-- `msb = v >> 8` (30_encoding.md R55). -/
def msbOf (v : Half) : Byte := (v >>> 8).setWidth 8

/-- `raw16 = byte0 | (byte1 << 8)`: the first byte received is the low one (20_memory.md R33 (a), 30_encoding.md R58). -/
def rawOfReply (r0 r1 : Byte) : Half := r0.setWidth 16 ||| (r1.setWidth 16 <<< 8)

/-- `raw32 = raw16 | (raw16b << 16)`: the lower index holds the low word (42_decode.md R95). -/
def pairCombine (lo hi : Half) : Word := lo.setWidth 32 ||| (hi.setWidth 32 <<< 16)

end Sys2Proof.Machine
end

