-- ==== Sys2Proof/Machine/Ops.lean ====
section
/-! DEFINITION. The named operations over the state: latching a command, the two transport primitives (41_framer.md R80 to
R82), the one place where `STAT` is written, offering an entry on `RSP` and handing it over (20_memory.md R40), and the two
ways an operation ends in an error, `raiseError` and `refuseCommand` (60_exceptions.md R121). The block has no handler and
nothing to return from (R123). -/

namespace Sys2Proof.Machine

open Sys2Proof

/-- The command word is held in `CMD` while the command is in progress (10_state.md R18). -/
def State.latchWord (w : Word) (s : State) : State := { s with lat := { s.lat with cmd := w } }

/-- `CMD` holds the word of command `i`. -/
def State.latchCommand (i : Instr) (s : State) : State := s.latchWord (encodeWord i)

/-- The block accepts the word `w` on `CMD`; the host still presents `ws` (10_state.md R17, 20_memory.md R38 (c)). -/
def State.accept (w : Word) (ws : List Word) (s : State) : State :=
  { s with cmdIn := ws, trace := s.trace ++ [.command w] }

/-- A request is handed to the transport and the block waits for its answer in phase `ph` (10_state.md R17,
20_memory.md R38 (a)); its bytes are in `TXBUF`. -/
def State.issue (ph : Phase) (q : Xreq) (s : State) : State :=
  { s with
    phase := ph
    xreq := some q
    lat := { s.lat with tx := #v[q.tx0, q.tx1, q.tx2, q.tx3] }
    trace := s.trace ++ [.request q] }

/-- The answer to the outstanding request arrives (41_framer.md R82); the bytes of an `Ok` go to `RXBUF`. -/
def State.receive (a : Xrsp) (rest : List Xrsp) (s : State) : State :=
  { s with
    xrspIn := rest
    xreq := none
    lat := { s.lat with rx := if a.ok then #v[a.rx0, a.rx1, a.rx2] else s.lat.rx }
    trace := s.trace ++ [.answer a] }

/-- `RAW_LO` takes the word of a first read transaction (10_state.md R18). -/
def State.latchLo (v : Half) (s : State) : State := { s with lat := { s.lat with rawLo := v } }

/-- `RAW_HI` takes the word of a second read transaction (10_state.md R18). -/
def State.latchHi (v : Half) (s : State) : State := { s with lat := { s.lat with rawHi := v } }

/-- `STAT[n]` (00_scope.md R7). -/
def State.statAt (s : State) (n : Index) : StatEntry := s.stat.get n

/-- `STAT[n] <- e` (00_scope.md R7). -/
def State.putStat (n : Index) (e : StatEntry) (s : State) : State :=
  { s with stat := s.stat.set n.val e n.isLt }

/-- `emit(entry)`: the entry is placed on `RSP` and the block waits in RESPOND until it is taken (00_scope.md R7,
10_state.md R17). `VALUE` and `PHYS` are the latches it is read from. -/
def State.offer (e : Entry) (s : State) : State :=
  { s with
    phase := .respond
    rsp := some e
    lat := { s.lat with value := e.value, phys := e.phys } }

/-- The host takes the entry (20_memory.md R40, 70_reset_and_hazards.md R145). -/
def State.handOver (e : Entry) (s : State) : State :=
  { s with
    rsp := none
    rspReady := s.rspReady - 1
    trace := s.trace ++ [.entry e] }

/-- The block returns to IDLE after the last entry of a command has been taken (10_state.md R17). -/
def State.goIdle (s : State) : State := { s with phase := .idle }

/-- `POLL_IDX <- p` (00_scope.md R7). -/
def State.setPoll (p : BitVec 6) (s : State) : State := { s with pollIdx := p }

/-- What a read transaction returns (41_framer.md R84): TransportError when the transport answered `Fail`, else
ReadChecksumError when the three bytes do not sum to zero, else the 16-bit word; the order is the priority of
60_exceptions.md R122. -/
def replyWord (a : Xrsp) : Except BusError Half :=
  if a.ok then
    if frameOk a.rx0 a.rx1 a.rx2 then .ok (rawOfReply a.rx0 a.rx1) else .error .checksum
  else .error .transport

/-- `raise E(r)`: the operation ends, no state is written, no further request is made, and the one error entry is offered
(60_exceptions.md R121; 00_scope.md R7). -/
def State.raiseError (e : BusError) (idx : BitVec 6) (waddr : Byte) (last : Bool) (s : State) : State :=
  s.offer (emptyEntry e.status idx waddr last)

/-- `refuse`: the command ends before any bus traffic with one entry (60_exceptions.md R117, R118; 00_scope.md R7). -/
def State.refuseCommand (st : Status) (waddr : Byte) (s : State) : State :=
  s.offer (emptyEntry st 0#6 waddr true)

end Sys2Proof.Machine
end

