-- ==== Sys2Proof/Machine/Framer.lean ====
section
/-! DEFINITION. FRAMER (41_framer.md): the two command frames and their requests, the read and the write transaction, and
what RDW and WRW do at their start and when their answer arrives. -/

namespace Sys2Proof.Machine

open Sys2Proof

/-- `build_rdcmd(r) = [r, csum8([r, ADDR7 << 1])]` (41_framer.md R83, 30_encoding.md R54). -/
def buildRdcmd (addr7 : BitVec 7) (r : Byte) : Vector Byte 2 := #v[r, csum8 [r, dirByte addr7]]

/-- The write command frame `[r, lsb, msb, csum8([ADDR7 << 1, r, lsb, msb])]` (41_framer.md R86, 30_encoding.md R55). -/
def buildWrcmd (addr7 : BitVec 7) (r : Byte) (v : Half) : Vector Byte 4 :=
  #v[r, lsbOf v, msbOf v, csum8 [dirByte addr7, r, lsbOf v, msbOf v]]

/-- `XferWriteRead(a, tx, 3)` as a request record (41_framer.md R80, 30_encoding.md R61). -/
def xferWriteRead (a : BitVec 7) (tx : Vector Byte 2) : Xreq := ⟨true, a, 2#3, 3#2, tx[0], tx[1], 0#8, 0#8⟩

/-- `XferWrite(a, tx)` as a request record (41_framer.md R81, 30_encoding.md R61). -/
def xferWrite (a : BitVec 7) (tx : Vector Byte 4) : Xreq := ⟨false, a, 4#3, 0#2, tx[0], tx[1], tx[2], tx[3]⟩

/-- The one bus request of `MemRead(DEV, r, 2)` (41_framer.md R84). -/
def readRequest (addr7 : BitVec 7) (r : Byte) : Xreq := xferWriteRead addr7 (buildRdcmd addr7 r)

/-- The one bus request of `MemWrite(DEV, r, 2, v)` (41_framer.md R86). -/
def writeRequest (addr7 : BitVec 7) (r : Byte) (v : Half) : Xreq := xferWrite addr7 (buildWrcmd addr7 r v)

/-- `MemRead(DEV, r, 2)` up to its bus request (41_framer.md R84); the block then waits in `ph`. -/
def State.beginRead (ph : Phase) (r : Byte) (s : State) : State := s.issue ph (readRequest s.addr7 r)

/-- `MemWrite(DEV, r, 2, v)` up to its bus request (41_framer.md R86). -/
def State.beginWrite (r : Byte) (v : Half) (s : State) : State := s.issue .xfer1 (writeRequest s.addr7 r v)

/-- RDW at its start (41_framer.md R85). -/
def rdwStart (r : Byte) (s : State) : State := s.beginRead .xfer1 r

/-- RDW when its answer arrives (41_framer.md R85). -/
def rdwAnswered (r : Byte) (a : Xrsp) (s : State) : State :=
  match replyWord a with
  | .ok v => (s.latchLo v).offer (rawEntry 0#6 r v)
  | .error e => s.raiseError e 0#6 r true

/-- WRW at its start (41_framer.md R87). -/
def wrwStart (r : Byte) (v : Half) (s : State) : State := s.beginWrite r v

/-- The entry of a WRW: only the transport can fail (41_framer.md R86, R87). -/
def writeEntry (r : Byte) (a : Xrsp) : Entry :=
  emptyEntry (if a.ok then .ok else .xportErr) 0#6 r true

/-- WRW when its answer arrives (41_framer.md R87). -/
def wrwAnswered (r : Byte) (a : Xrsp) (s : State) : State :=
  if a.ok then s.offer (emptyEntry .ok 0#6 r true) else s.raiseError .transport 0#6 r true

end Sys2Proof.Machine
end

