-- ==== Sys2Proof/Machine/Tracker.lean ====
section
/-! DEFINITION. TRACKER (43_minmax_poll.md): the update of the statistics RAM and the span. The poll sequencer is in
Machine/Decoder.lean and Machine/Sequencer.lean, since each of its steps is a decode. -/

namespace Sys2Proof.Machine

open Sys2Proof

/-- The update of one entry with a decoded value, unsigned compares, both on the values before (43_minmax_poll.md R105). -/
def StatEntry.update (e : StatEntry) (value : Word) : StatEntry where
  min := if value.toNat < e.min.toNat then value else e.min
  max := if e.max.toNat < value.toNat then value else e.max

/-- `span = (STAT[n].max - STAT[n].min) mod 2^32` (43_minmax_poll.md R106). -/
def StatEntry.span (e : StatEntry) : Word := e.max - e.min

/-- `stat_update(n, value)` (43_minmax_poll.md R105). -/
def State.statUpdate (n : Index) (value : Word) (s : State) : State :=
  s.putStat n ((s.statAt n).update value)

end Sys2Proof.Machine
end

