-- ==== Sys2Proof/Machine/Decoder.lean ====
section
/-! DEFINITION. DECODER (42_decode.md): the scaler, the entry of a decode, the procedure `decode_one(n, last)` of R97 cut at
its bus requests, and what RDREG, DECODE and POLLALL do at their start, when an answer arrives and when an entry is taken. -/

namespace Sys2Proof.Machine

open Sys2Proof

/-- `PHYS = VALUE * RECIP`, the whole 57-bit product (42_decode.md R96). -/
def scale (value : Word) (recip : BitVec 25) : Phys := value.setWidth 57 * recip.setWidth 57

/-- The entry of a successful decode of index `n` under LUT entry `e`, with `st` the statistics after the update
(42_decode.md R97). -/
def decodedEntry (e : LutEntry) (n : Index) (last : Bool) (value : Word) (st : StatEntry) : Entry where
  status := .ok
  kind := if e.bitf then .bitfield else .scaled
  known := e.known
  pair := e.pair
  last := last
  idx := idxBits n
  waddr := wire n.val
  value := value
  min := st.min
  max := st.max
  span := st.span
  phys := if e.bitf then 0#57 else scale value e.recip

/-- The first read of `decode_one(n, last)` (42_decode.md R97). -/
def decodeStart (n : Index) (s : State) : State := s.beginRead .xfer1 (wire n.val)

/-- The end of `decode_one(n, last)` after its reads have succeeded: the statistics first, then the entry (42_decode.md
R97). -/
def decodeFinish (n : Index) (last : Bool) (value : Word) (s : State) : State :=
  (s.statUpdate n value).offer
    (decodedEntry (s.cfg.lut n) n last value ((s.statAt n).update value))

/-- `decode_one(n, last)` when the answer of its first read arrives (42_decode.md R97). -/
def decodeAnswered1 (n : Index) (last : Bool) (a : Xrsp) (s : State) : State :=
  match replyWord a with
  | .error e => s.raiseError e (idxBits n) (wire n.val) last
  | .ok lo =>
    if (s.cfg.lut n).pair then (s.latchLo lo).beginRead .xfer2 (wire (n.val + 1))
    else decodeFinish n last (lo.setWidth 32) (s.latchLo lo)

/-- `decode_one(n, last)` when the answer of its second read arrives (42_decode.md R97). -/
def decodeAnswered2 (n : Index) (last : Bool) (a : Xrsp) (s : State) : State :=
  match replyWord a with
  | .error e => s.raiseError e (idxBits n) (wire (n.val + 1)) last
  | .ok hi => decodeFinish n last (pairCombine s.lat.rawLo hi) (s.latchHi hi)

/-- RDREG at its start: the index check first (42_decode.md R90, 60_exceptions.md R118, R122). -/
def rdregStart (n : Byte) (s : State) : State :=
  match indexOfByte n with
  | none => s.refuseCommand .badIndex n
  | some k => s.beginRead .xfer1 (wire k.val)

/-- RDREG when its answer arrives (42_decode.md R90). -/
def rdregAnswered (n : Index) (a : Xrsp) (s : State) : State :=
  match replyWord a with
  | .ok v => (s.latchLo v).offer (rawEntry (idxBits n) (wire n.val) v)
  | .error e => s.raiseError e (idxBits n) (wire n.val) true

/-- DECODE at its start: the index check first (42_decode.md R97, 60_exceptions.md R118, R122). -/
def decodeCmdStart (n : Byte) (s : State) : State :=
  match indexOfByte n with
  | none => s.refuseCommand .badIndex n
  | some k => decodeStart k s

/-- POLLALL at its start (43_minmax_poll.md R108). -/
def pollStart (s : State) : State := decodeStart 0 (s.setPoll 0#6)

/-- `LAST` of the entry for index `n` of a poll (43_minmax_poll.md R108). -/
def pollLast (n : Index) : Bool := n.val == 43

/-- POLLALL when the entry for index `n` has been taken: stop after index 43, else go on with `n + 1`, whatever the entry
reported (43_minmax_poll.md R108, R109). -/
def pollTaken (n : Index) (s : State) : State :=
  if h : n.val + 1 < nreg then decodeStart ⟨n.val + 1, h⟩ (s.setPoll (idxBits ⟨n.val + 1, h⟩)) else s.goIdle

end Sys2Proof.Machine
end

