-- ==== Sys2Proof/Machine/Sequencer.lean ====
section
/-! DEFINITION. The control of the block (10_state.md R17, 43_minmax_poll.md R111): what happens when an answer arrives
in XFER1 or XFER2 and when an entry is taken in RESPOND, `advance`, and running the block as far as the inputs that have
arrived allow, `settle`. -/

namespace Sys2Proof.Machine

open Sys2Proof

/-- The answer of the first transaction of the command in `CMD` has arrived. In a state that no run reaches (no command in
progress, or an index out of range) nothing more happens. -/
def answered1 (a : Xrsp) (s : State) : State :=
  match decodeWord s.lat.cmd with
  | .instr (.rdw r) => rdwAnswered r a s
  | .instr (.wrw r _) => wrwAnswered r a s
  | .instr (.rdreg n) =>
    match indexOfByte n with
    | some k => rdregAnswered k a s
    | none => s
  | .instr (.decode n) =>
    match indexOfByte n with
    | some k => decodeAnswered1 k true a s
    | none => s
  | .instr .pollall =>
    match indexOfPoll s.pollIdx with
    | some k => decodeAnswered1 k (pollLast k) a s
    | none => s
  | .illegal _ => s

/-- The answer of the second transaction of a paired decode has arrived (42_decode.md R97). -/
def answered2 (a : Xrsp) (s : State) : State :=
  match decodeWord s.lat.cmd with
  | .instr (.rdw _) => s
  | .instr (.wrw _ _) => s
  | .instr (.rdreg _) => s
  | .instr (.decode n) =>
    match indexOfByte n with
    | some k => decodeAnswered2 k true a s
    | none => s
  | .instr .pollall =>
    match indexOfPoll s.pollIdx with
    | some k => decodeAnswered2 k (pollLast k) a s
    | none => s
  | .illegal _ => s

/-- The host has taken the entry: a poll goes on with its next index, every other command is over (10_state.md R17,
43_minmax_poll.md R108). -/
def taken (s : State) : State :=
  match decodeWord s.lat.cmd with
  | .instr (.rdw _) => s.goIdle
  | .instr (.wrw _ _) => s.goIdle
  | .instr (.rdreg _) => s.goIdle
  | .instr (.decode _) => s.goIdle
  | .instr .pollall =>
    match indexOfPoll s.pollIdx with
    | some k => pollTaken k s
    | none => s.goIdle
  | .illegal _ => s.goIdle

/-- One event of a BUSY block: the next answer when it waits for one, the next taking when it offers an entry; none when
that input has not come (70_reset_and_hazards.md R144, R145) or the block is IDLE. -/
def advance (s : State) : Option State :=
  match s.phase with
  | .idle => none
  | .xfer1 =>
    match s.xrspIn with
    | [] => none
    | a :: rest => some (answered1 a (s.receive a rest))
  | .xfer2 =>
    match s.xrspIn with
    | [] => none
    | a :: rest => some (answered2 a (s.receive a rest))
  | .respond =>
    match s.rsp, s.rspReady with
    | some e, _ + 1 => some (taken (s.handOver e))
    | some _, 0 => none
    | none, _ => none

/-- At most `k` events. -/
def settleN : Nat → State → State
  | 0, s => s
  | k + 1, s =>
    match advance s with
    | none => s
    | some t => settleN k t

/-- How many inputs stand ready; every event uses one up. -/
def State.inputs (s : State) : Nat := s.xrspIn.length + s.rspReady

/-- The block runs until it is IDLE or waits for an input that has not come. -/
def settle (s : State) : State := settleN s.inputs s

/-- The block runs, if its catalog is admitted (42_decode.md R93: 'A model should refuse (give no meaning to) a configuration
that breaks one'; notes/assumptions/7). -/
def runBlock (s : State) : Host.Outcome State Fault Refusal :=
  if s.cfg.admitted then .next (settle s) else .refused .catalogNotAdmitted

/-- The index of the decode in progress, if the command in `CMD` is a DECODE or a POLLALL. -/
def decodeIndex (s : State) : Option Index :=
  match decodeWord s.lat.cmd with
  | .instr (.rdw _) => none
  | .instr (.wrw _ _) => none
  | .instr (.rdreg _) => none
  | .instr (.decode n) => indexOfByte n
  | .instr .pollall => indexOfPoll s.pollIdx
  | .illegal _ => none

/-- The request that the command in `CMD` waits on in its first transaction. -/
def firstRequest (s : State) : Option Xreq :=
  match decodeWord s.lat.cmd with
  | .instr (.rdw r) => some (readRequest s.addr7 r)
  | .instr (.wrw r v) => some (writeRequest s.addr7 r v)
  | .instr (.rdreg n) => (indexOfByte n).map fun k => readRequest s.addr7 (wire k.val)
  | .instr (.decode _) => (decodeIndex s).map fun k => readRequest s.addr7 (wire k.val)
  | .instr .pollall => (decodeIndex s).map fun k => readRequest s.addr7 (wire k.val)
  | .illegal _ => none

/-- The request that a paired decode waits on in its second transaction. -/
def secondRequest (s : State) : Option Xreq :=
  match decodeIndex s with
  | some k => if (s.cfg.lut k).pair then some (readRequest s.addr7 (wire (k.val + 1))) else none
  | none => none

/-- Whether an entry taken now is the last of the command in `CMD`: every entry is but those of a poll before index 43. -/
def lastExpected (s : State) : Bool :=
  match decodeWord s.lat.cmd with
  | .instr (.rdw _) => true
  | .instr (.wrw _ _) => true
  | .instr (.rdreg _) => true
  | .instr (.decode _) => true
  | .instr .pollall =>
    match indexOfPoll s.pollIdx with
    | some k => pollLast k
    | none => true
  | .illegal _ => true

/-- `PHASE`, `CMD`, `POLL_IDX` and the two output ports fit together: in IDLE nothing is outstanding and nothing is offered;
in XFER1 and XFER2 exactly the request of the command in progress is outstanding; in RESPOND exactly one entry is offered,
and its `LAST` bit says whether the command ends with it (10_state.md R17, 20_memory.md R38 (a)). -/
def State.controlOk (s : State) : Bool :=
  match s.phase with
  | .idle => s.xreq.isNone && s.rsp.isNone
  | .xfer1 => s.xreq.isSome && s.xreq == firstRequest s && s.rsp.isNone
  | .xfer2 => s.xreq.isSome && s.xreq == secondRequest s && s.rsp.isNone
  | .respond => s.xreq.isNone && s.rsp.map Entry.last == some (lastExpected s)

end Sys2Proof.Machine
end

