-- ==== Sys2Proof/Machine/Commands.lean ====
section
/-! DEFINITION. The meaning of each command (30_encoding.md R51): what the block does from the acceptance of its word until it
is IDLE again or waits for an input that has not come. Each starts its own operation; the answers and takings that have
arrived are consumed by `settle`, which comes back to the operation's own definitions in Machine/Framer.lean and
Machine/Decoder.lean. -/

namespace Sys2Proof.Machine

open Sys2Proof

/-- `RDW r` (41_framer.md R85). -/
def execRdw (r : Byte) (s : State) : Host.Outcome State Fault Refusal :=
  runBlock (rdwStart r (s.latchCommand (.rdw r)))

/-- `WRW r, v` (41_framer.md R87). -/
def execWrw (r : Byte) (v : Half) (s : State) : Host.Outcome State Fault Refusal :=
  runBlock (wrwStart r v (s.latchCommand (.wrw r v)))

/-- `RDREG n` (42_decode.md R90). -/
def execRdreg (n : Byte) (s : State) : Host.Outcome State Fault Refusal :=
  runBlock (rdregStart n (s.latchCommand (.rdreg n)))

/-- `DECODE n` (42_decode.md R97). -/
def execDecode (n : Byte) (s : State) : Host.Outcome State Fault Refusal :=
  runBlock (decodeCmdStart n (s.latchCommand (.decode n)))

/-- `POLLALL` (43_minmax_poll.md R108). -/
def execPollall (s : State) : Host.Outcome State Fault Refusal :=
  runBlock (pollStart (s.latchCommand .pollall))

/-- The word `w` selects no operation (60_exceptions.md R117): one ILLEGAL_CMD entry, no bus request, no state change. -/
def execIllegal (w : Word) (s : State) : Host.Outcome State Fault Refusal :=
  runBlock ((s.latchWord w).refuseCommand .illegalCmd 0#8)

end Sys2Proof.Machine
end

