-- ==== Sys2Proof/Machine/Dispatch.lean ====
section
/-! DEFINITION. One arm per command. -/

namespace Sys2Proof.Machine

open Sys2Proof

def exec (i : Instr) (s : State) : Host.Outcome State Fault Refusal :=
  match i with
  | .rdw r => Sys2Proof.Machine.execRdw r s
  | .wrw r v => Sys2Proof.Machine.execWrw r v s
  | .rdreg n => Sys2Proof.Machine.execRdreg n s
  | .decode n => Sys2Proof.Machine.execDecode n s
  | .pollall => Sys2Proof.Machine.execPollall s

end Sys2Proof.Machine
end

