-- ==== Sys2Proof/Machine/Fetch.lean ====
section
/-! DEFINITION. What the block does with the next command word (10_state.md R16, R17; 30_encoding.md R53): there is no program
counter and no fetch from memory; the host presents the words on the command port. -/

namespace Sys2Proof.Machine

open Sys2Proof

/-- The accepted word `w` is run: its command, or the refusal of a word that selects none (30_encoding.md R51, R53). -/
def runWord (w : Word) (s : State) : Host.Outcome State Fault Refusal :=
  match decodeWord w with
  | .instr i => exec i s
  | .illegal _ => execIllegal w s

/-- In IDLE the block takes the next command word, if the host presents one, and else waits (70_reset_and_hazards.md R135). -/
def takeCommand (s : State) : Host.Outcome State Fault Refusal :=
  match s.cmdIn with
  | [] => .next s
  | w :: ws => runWord w (s.accept w ws)

end Sys2Proof.Machine
end

