-- ==== Sys2Proof/Machine/Reset.lean ====
section
/-! DEFINITION. The reset event (70_reset_and_hazards.md R135, R136). -/

namespace Sys2Proof.Machine

open Sys2Proof

/-- The answers that remain after reset: that of a request outstanding at reset 'is ignored' (70_reset_and_hazards.md R136).
DESIGN CHOICE, unsafe: notes/assumptions/12. -/
def State.answersAfterReset (s : State) : List Xrsp :=
  if s.xreq.isSome then s.xrspIn.drop 1 else s.xrspIn

/-- Asserting `RESET` puts the block in the state of 10_state.md R21, with `ADDR7` loaded from the pins as they are; a command in
progress is abandoned (70_reset_and_hazards.md R135, R136). What the outside presents at the input ports stays, and so does
the record of what has been seen at the ports. -/
def applyReset (s : State) : State :=
  { State.resetOf s.cfg s.addrSel with
    resetPin := s.resetPin
    cmdIn := s.cmdIn
    xrspIn := s.answersAfterReset
    rspReady := s.rspReady
    trace := s.trace ++ [.reset] }

end Sys2Proof.Machine
end

