-- ==== Sys2Proof/Machine/Step.lean ====
section
/-! DEFINITION. One step of the machine, and placing a command where the next step takes it. -/

namespace Sys2Proof.Machine

open Sys2Proof

/-- One step. While `RESET` is asserted the block is in reset (70_reset_and_hazards.md R135). Otherwise an IDLE block takes
the next command and runs it as far as the inputs allow, and a BUSY block runs on (10_state.md R17; notes/assumptions/1). -/
def step (s : State) : Host.Outcome State Fault Refusal :=
  if s.resetPin then .next (applyReset s)
  else if s.controlOk then
    match s.phase with
    | .idle => takeCommand s
    | .xfer1 => runBlock s
    | .xfer2 => runBlock s
    | .respond => runBlock s
  else .fault .controlMismatch

/-- `s` with the command word `w` first at the command port of an IDLE block that is not in reset, so that the next step
accepts and runs it (notes/assumptions/2). -/
def State.withFetchWord (s : State) (nbits w : Nat) : State :=
  { s with
    resetPin := false
    phase := .idle
    xreq := none
    rsp := none
    cmdIn := BitVec.ofNat 32 (w % 2 ^ nbits) :: s.cmdIn }

end Sys2Proof.Machine
end

