-- ==== Sys2Proof/Machine/BigStep.lean ====
section
/-! DEFINITION. The big step of a command (10_state.md R20): the spec's own pseudocode of R84, R85, R86, R87, R90, R97 and
R108, read straight through, as a function of the configuration, `ADDR7`, `STAT`, the command and the oracle's answers.
`step` does not use it; it is the second reading of the spec that the small-step control is held to. It answers none where
the oracle's answers run out. -/

namespace Sys2Proof.Machine

open Sys2Proof

/-- What a command does: the statistics after it, the port events of its run in order (requests, answers, entries), and
the answers it has not used. -/
structure BigResult where
  stat : Stat
  events : List Event
  rest : List Xrsp
  deriving DecidableEq, Repr

/-- One bus transaction: the request, the oracle's next answer, and the answers left. -/
def bigXfer (q : Xreq) (oracle : List Xrsp) : Option (Xrsp × List Event × List Xrsp) :=
  match oracle with
  | [] => none
  | a :: rest => some (a, [.request q, .answer a], rest)

/-- `MemRead(DEV, r, 2)` (41_framer.md R84). -/
def bigMemRead (addr7 : BitVec 7) (r : Byte) (oracle : List Xrsp) :
    Option (Except BusError Half × List Event × List Xrsp) :=
  match bigXfer (readRequest addr7 r) oracle with
  | none => none
  | some (a, ev, rest) => some (replyWord a, ev, rest)

/-- RDW and RDREG after the index check: one read, one entry (41_framer.md R85, 42_decode.md R90). -/
def bigRawRead (addr7 : BitVec 7) (st : Stat) (idx : BitVec 6) (r : Byte) (oracle : List Xrsp) : Option BigResult :=
  match bigMemRead addr7 r oracle with
  | none => none
  | some (ans, ev, rest) => some ⟨st, ev ++ [.entry (readEntry idx r ans)], rest⟩

/-- WRW (41_framer.md R86, R87). -/
def bigWrite (addr7 : BitVec 7) (st : Stat) (r : Byte) (v : Half) (oracle : List Xrsp) : Option BigResult :=
  match bigXfer (writeRequest addr7 r v) oracle with
  | none => none
  | some (a, ev, rest) => some ⟨st, ev ++ [.entry (writeEntry r a)], rest⟩

/-- `decode_one(n, last)` once its value is known (42_decode.md R97). -/
def bigFinish (c : Config) (st : Stat) (n : Index) (last : Bool) (value : Word) (ev : List Event) (rest : List Xrsp) :
    BigResult :=
  let e := (st.get n).update value
  ⟨st.set n.val e n.isLt, ev ++ [.entry (decodedEntry (c.lut n) n last value e)], rest⟩

/-- `decode_one(n, last)` (42_decode.md R97). -/
def bigDecodeOne (c : Config) (addr7 : BitVec 7) (st : Stat) (n : Index) (last : Bool) (oracle : List Xrsp) :
    Option BigResult :=
  match bigMemRead addr7 (wire n.val) oracle with
  | none => none
  | some (.error e, ev, rest) =>
    some ⟨st, ev ++ [.entry (emptyEntry e.status (idxBits n) (wire n.val) last)], rest⟩
  | some (.ok lo, ev, rest) =>
    if (c.lut n).pair then
      match bigMemRead addr7 (wire (n.val + 1)) rest with
      | none => none
      | some (.error e, ev2, rest2) =>
        some ⟨st, ev ++ ev2 ++ [.entry (emptyEntry e.status (idxBits n) (wire (n.val + 1)) last)], rest2⟩
      | some (.ok hi, ev2, rest2) => some (bigFinish c st n last (pairCombine lo hi) (ev ++ ev2) rest2)
    else some (bigFinish c st n last (lo.setWidth 32) ev rest)

/-- The loop of POLLALL over the indices still to come (43_minmax_poll.md R108, R109). -/
def bigPoll (c : Config) (addr7 : BitVec 7) : List Index → Stat → List Xrsp → Option BigResult
  | [], st, oracle => some ⟨st, [], oracle⟩
  | n :: ns, st, oracle =>
    match bigDecodeOne c addr7 st n (pollLast n) oracle with
    | none => none
    | some r =>
      match bigPoll c addr7 ns r.stat r.rest with
      | none => none
      | some r2 => some ⟨r2.stat, r.events ++ r2.events, r2.rest⟩

/-- The big step of a command (10_state.md R20). -/
def bigStep (c : Config) (addr7 : BitVec 7) (st : Stat) (i : Instr) (oracle : List Xrsp) : Option BigResult :=
  match i with
  | .rdw r => bigRawRead addr7 st 0#6 r oracle
  | .wrw r v => bigWrite addr7 st r v oracle
  | .rdreg n =>
    match indexOfByte n with
    | none => some ⟨st, [.entry (emptyEntry .badIndex 0#6 n true)], oracle⟩
    | some k => bigRawRead addr7 st (idxBits k) (wire k.val) oracle
  | .decode n =>
    match indexOfByte n with
    | none => some ⟨st, [.entry (emptyEntry .badIndex 0#6 n true)], oracle⟩
    | some k => bigDecodeOne c addr7 st k true oracle
  | .pollall => bigPoll c addr7 (List.finRange nreg) st oracle

/-- The response entries among the port events. -/
def entriesOf : List Event → List Entry
  | [] => []
  | .entry e :: evs => e :: entriesOf evs
  | .reset :: evs => entriesOf evs
  | .command _ :: evs => entriesOf evs
  | .request _ :: evs => entriesOf evs
  | .answer _ :: evs => entriesOf evs

/-- The bus requests among the port events. -/
def requestsOf : List Event → List Xreq
  | [] => []
  | .request q :: evs => q :: requestsOf evs
  | .reset :: evs => requestsOf evs
  | .command _ :: evs => requestsOf evs
  | .answer _ :: evs => requestsOf evs
  | .entry _ :: evs => requestsOf evs

end Sys2Proof.Machine
end

