-- ==== Sys2Proof/Machine/Environment.lean ====
section
/-! DEFINITION. What the outside may do between two steps (70_reset_and_hazards.md R149, 10_state.md R22). -/

namespace Sys2Proof.Machine

open Sys2Proof

/-- A move of the host, the transport or the pins. -/
inductive EnvMove where
  /-- The host presents 'any 32-bit word as a command' (70_reset_and_hazards.md R149). -/
  | present (w : Word)
  /-- The host is ready to take one more entry (R145, R149). -/
  | ready
  /-- The transport answers, `Fail` or `Ok` and any three bytes (41_framer.md R82). -/
  | answer (a : Xrsp)
  /-- The answer of a request that a reset has abandoned arrives: it 'is ignored' (70_reset_and_hazards.md R136). -/
  | lateAnswer (a : Xrsp)
  /-- `RESET` is asserted (true) or released (false). -/
  | reset (level : Bool)
  /-- The three `ADDR_SEL` pins change (70_reset_and_hazards.md R148). -/
  | pins (sel : BitVec 3)
  deriving DecidableEq, Repr

/-- The state after a move of the outside: only the input ports change. -/
def EnvMove.apply (m : EnvMove) (s : State) : State :=
  match m with
  | .present w => { s with cmdIn := s.cmdIn ++ [w] }
  | .ready => { s with rspReady := s.rspReady + 1 }
  | .answer a => { s with xrspIn := s.xrspIn ++ [a] }
  | .lateAnswer _ => s
  | .reset level => { s with resetPin := level }
  | .pins sel => { s with addrSel := sel }

end Sys2Proof.Machine
end

