-- ==== Sys2Proof/Safety.lean ====
section
/-! DEFINITION. What claims are stated in: the order of the port events (20_memory.md R38, R40), the invariant of the
statistics (10_state.md R14), the invariant of the whole machine, the states that runs reach, and what it means that the
transport keeps up (92_eei_decisions.md D12). -/

namespace Sys2Proof.Machine

open Sys2Proof

/-- What an observer of the ports knows after the events so far: no command in progress; a command in progress and no
request outstanding; a request outstanding. -/
inductive PortOrder where
  | idle | busy | waiting
  deriving DecidableEq, Repr

/-- The next event in the order that 20_memory.md R38 and R40 allow: a command only when none is in progress, a request or
an entry only within a command and with no request outstanding, an answer only to an outstanding request; an entry marked
`LAST` ends its command; a reset at any time. -/
def PortOrder.next (o : PortOrder) (ev : Event) : Option PortOrder :=
  match o, ev with
  | _, .reset => some .idle
  | .idle, .command _ => some .busy
  | .busy, .request _ => some .waiting
  | .waiting, .answer _ => some .busy
  | .busy, .entry e => some (if e.last then .idle else .busy)
  | _, _ => none

/-- Reads the events from `o`; none where one stands out of order. -/
def PortOrder.read (o : PortOrder) : List Event → Option PortOrder
  | [] => some o
  | ev :: evs =>
    match o.next ev with
    | none => none
    | some o' => o'.read evs

/-- What `PHASE` shows of the order (10_state.md R17). -/
def Phase.order : Phase → PortOrder
  | .idle => .idle
  | .xfer1 => .waiting
  | .xfer2 => .waiting
  | .respond => .busy

/-- The invariant of one statistics entry (10_state.md R14 (a), (c)). -/
def StatEntry.ok (e : StatEntry) : Prop :=
  e.min.toNat ≤ 0xFFFF ∧ (e = StatEntry.atReset ∨ e.min.toNat ≤ e.max.toNat)

/-- The invariant of the statistics RAM (10_state.md R14). -/
def State.StatOk (s : State) : Prop := ∀ n : Index, (s.statAt n).ok

/-- The invariant of the machine: the control state and the ports fit together, `POLL_IDX` is in range (10_state.md R16), the
port events stand in the order of 20_memory.md R38 and R40 and agree with `PHASE`, and the statistics are as R14 says. -/
structure State.Inv (s : State) : Prop where
  control : s.controlOk = true
  poll : s.pollIdx.toNat ≤ 43
  order : PortOrder.idle.read s.trace = some s.phase.order
  stats : s.StatOk

/-- The states that runs reach: from reset of any admitted configuration with any pins, by steps of the block and moves of
the outside (70_reset_and_hazards.md R137, R149). -/
inductive Reachable : State → Prop where
  | start (c : Config) (sel : BitVec 3) (h : c.admitted = true) : Reachable (State.resetOf c sel)
  | byStep (s t : State) (hs : Reachable s) (h : step s = .next t) : Reachable t
  | byMove (s : State) (m : EnvMove) (hs : Reachable s) : Reachable (m.apply s)

/-- With `transport_live` assumed, an outstanding request has its answer waiting (92_eei_decisions.md D12). -/
def State.TransportKeepsUp (s : State) : Prop :=
  s.cfg.transportLive = true → s.xreq.isSome = true → s.xrspIn ≠ []

/-- `s` and `t` differ at most in the transient latches and in `POLL_IDX` (10_state.md R16, R18). -/
def State.SameButLatches (s t : State) : Prop :=
  { s with lat := t.lat, pollIdx := t.pollIdx } = t

/-- `s` and `t` differ at most in what no rule lets be seen: the latches and `POLL_IDX`, but not `CMD` while a command is in
progress, `POLL_IDX` while a POLLALL is, and `RAW_LO` while the second word of a pair is awaited (10_state.md R16, R18). -/
structure State.LatchAlike (s t : State) : Prop where
  same : s.SameButLatches t
  cmd : s.phase ≠ .idle → t.lat.cmd = s.lat.cmd
  poll : s.phase ≠ .idle → decodeWord s.lat.cmd = .instr .pollall → t.pollIdx = s.pollIdx
  rawLo : s.phase = .xfer2 → t.lat.rawLo = s.lat.rawLo

/-- Two outcomes that agree: next states that are alike, the same fault, or the same refusal. -/
def OutcomesAlike : Host.Outcome State Fault Refusal → Host.Outcome State Fault Refusal → Prop
  | .next s, .next t => s.LatchAlike t
  | .fault f, .fault g => f = g
  | .refused f, .refused g => f = g
  | .next _, .fault _ => False
  | .next _, .refused _ => False
  | .fault _, .next _ => False
  | .fault _, .refused _ => False
  | .refused _, .next _ => False
  | .refused _, .fault _ => False

/-- The entries taken since the last reset, oldest first. -/
def entriesSinceReset (evs : List Event) : List Entry :=
  evs.foldl (fun acc ev =>
    match ev with
    | .reset => []
    | .entry e => acc ++ [e]
    | .command _ => acc
    | .request _ => acc
    | .answer _ => acc) []

/-- The value that an entry reports for a successful decode of index `n`, if it reports one (30_encoding.md R60, R64). -/
def decodedValue (n : Index) (e : Entry) : Option Word :=
  if e.status = .ok ∧ (e.kind = .scaled ∨ e.kind = .bitfield) ∧ e.idx = idxBits n then some e.value else none

/-- The values that the entries since the last reset report for successful decodes of index `n`, the entry on offer
included: the `v1, ..., vk` of 43_minmax_poll.md R107. -/
def State.reportedValues (n : Index) (s : State) : List Word :=
  (entriesSinceReset s.trace ++ s.rsp.toList).filterMap (decodedValue n)

/-- `STAT` is what the reported values make of the reset values (43_minmax_poll.md R105, R107). -/
def State.StatIsReported (s : State) : Prop :=
  ∀ n : Index, s.statAt n = (s.reportedValues n).foldl StatEntry.update StatEntry.atReset

end Sys2Proof.Machine
end

