-- ==== Sys2Proof/Certificates/Slice0/Obligations.lean ====
section
/-! DEFINITION. The statements for the provers. The outcomes are written out here once more in plain arithmetic, from the
spec's rules and not from the model's definitions, so that a statement can be read beside its rule. -/

namespace Sys2Proof.Claims

open Sys2Proof Sys2Proof.Machine

/-- The transport completed and the three bytes sum to zero mod 256 (40_checksum.md R72, 41_framer.md R84). -/
abbrev ValidReply (a : Xrsp) : Prop :=
  a.ok = true ∧ (a.rx0.toNat + a.rx1.toNat + a.rx2.toNat) % 256 = 0

/-- The little-endian 16-bit word of a reply (20_memory.md R33 (a)). -/
abbrev replyValue (a : Xrsp) : Nat := a.rx0.toNat + 256 * a.rx1.toNat

/-- The `STATUS` of a failed read (41_framer.md R85, 60_exceptions.md R122). -/
def failStatus (a : Xrsp) : Status := if a.ok = true then .csumErr else .xportErr

/-- An entry that carries no value (30_encoding.md R60, R64). -/
def noValue (st : Status) (idx : Nat) (waddr : Nat) (last : Bool) : Entry :=
  ⟨st, .none, false, false, last, BitVec.ofNat 6 idx, BitVec.ofNat 8 waddr, 0#32, 0#32, 0#32, 0#32, 0#57⟩

/-- The entry of RDW and RDREG for the answer `a` (41_framer.md R85, 42_decode.md R90). -/
def rawOutcome (idx waddr : Nat) (a : Xrsp) : Entry :=
  if ValidReply a then
    ⟨.ok, .raw, false, false, true, BitVec.ofNat 6 idx, BitVec.ofNat 8 waddr, BitVec.ofNat 32 (replyValue a),
      0#32, 0#32, 0#32, 0#57⟩
  else noValue (failStatus a) idx waddr true

/-- A statistics entry after the update with `value`, unsigned compares (43_minmax_poll.md R105). -/
def updated (e : StatEntry) (value : Nat) : StatEntry :=
  ⟨BitVec.ofNat 32 (Nat.min e.min.toNat value), BitVec.ofNat 32 (Nat.max e.max.toNat value)⟩

/-- The entry of a successful decode (42_decode.md R97): `e` is `LUT[n]`, `st` the statistics after the update. -/
def decodeOutcome (e : LutEntry) (n : Nat) (last : Bool) (value : Nat) (st : StatEntry) : Entry :=
  ⟨.ok, if e.bitf = true then .bitfield else .scaled, e.known, e.pair, last, BitVec.ofNat 6 n, BitVec.ofNat 8 (2 * n),
    BitVec.ofNat 32 value, st.min, st.max, BitVec.ofNat 32 (st.max.toNat - st.min.toNat),
    if e.bitf = true then 0#57 else BitVec.ofNat 57 (value * e.recip.toNat)⟩

/-- `P`, the number of indices whose LUT entry has `PAIR = 1` (43_minmax_poll.md R110). -/
def pairCount (c : Config) : Nat := ((List.finRange nreg).filter fun n => (c.lut n).pair).length

/-- How many answers the decode of index `n` uses when the answers from it on are `o` (42_decode.md R97). -/
def answersUsed (c : Config) (n : Nat) (o : List Xrsp) : Nat :=
  if h : n < nreg then
    match o with
    | [] => 1
    | a :: _ => if (c.lut ⟨n, h⟩).pair = true ∧ ValidReply a then 2 else 1
  else 1

/-- The answers left when a poll comes to index `n` (43_minmax_poll.md R108). -/
def answersFrom (c : Config) (o : List Xrsp) : Nat → List Xrsp
  | 0 => o
  | n + 1 => (answersFrom c o n).drop (answersUsed c n (answersFrom c o n))

/-- The events that stand in `t`'s record after those of `s`. -/
def newEvents (s t : State) : List Event := t.trace.drop s.trace.length

/-- The command of row `m` of the opcode map in the word `w`: the operands are `A`, bits 23:16, and `V`, bits 15:0
(30_encoding.md R50, R51). -/
def rowCommand (m : Mnemonic) (w : Word) : Instr :=
  let a : Byte := BitVec.ofNat 8 (w.toNat / 65536)
  let v : Half := BitVec.ofNat 16 w.toNat
  match m with
  | .rdw => .rdw a
  | .wrw => .wrw a v
  | .rdreg => .rdreg a
  | .decode => .decode a
  | .pollall => .pollall

/-- `s` with the further answers `xs` on `XRSP` and a host ready to take `k` more entries. -/
def feed (xs : List Xrsp) (k : Nat) (s : State) : State :=
  { s with xrspIn := s.xrspIn ++ xs, rspReady := s.rspReady + k }

/-- The block is IDLE, out of reset and in order, and the word `w` is the next it takes. -/
structure Accepts (s : State) (w : Word) (ws : List Word) : Prop where
  reset : s.resetPin = false
  idle : s.phase = .idle
  control : s.controlOk = true
  word : s.cmdIn = w :: ws

end Sys2Proof.Claims

open Sys2Proof Sys2Proof.Machine Sys2Proof.Claims

/-! ### The command word (30_encoding.md) -/

/-- R50, R51, R65: no bit of an encoding is dropped. -/
def Obligations.DecodeOfEncodeIsTheCommand : Prop := ∀ i : Instr, decodeWord (encodeWord i) = .instr i

/-- R51, R53: each legal word has one meaning, and the encoder writes that word. -/
def Obligations.EncodeOfDecodeIsTheWord : Prop :=
  ∀ (w : Word) (i : Instr), decodeWord w = .instr i → encodeWord i = w

/-- R51: a word selects a row when `w & mask == match`, and is then that row's command with `A` and `V` as operands; the five
rows are disjoint; a word that selects no row is illegal. -/
def Obligations.WordSelectsTheRowItDecodesTo : Prop :=
  (∀ (w : Word) (m : Mnemonic), (w &&& m.mask = m.matchWord) ↔ decodeWord w = .instr (rowCommand m w)) ∧
  (∀ (w : Word) (i : Instr), decodeWord w = .instr i → ∃ m, i = rowCommand m w) ∧
  (∀ (w : Word) (m m' : Mnemonic), w &&& m.mask = m.matchWord → w &&& m'.mask = m'.matchWord → m = m') ∧
  (∀ w : Word, (∀ m : Mnemonic, w &&& m.mask ≠ m.matchWord) → ∃ why, decodeWord w = .illegal why)

/-- R59: `WRREG n, v` is the WRW of the doubled index, for every `n` to 0x7F. -/
def Obligations.WrregIsTheWriteOfTheDoubledIndex : Prop :=
  ∀ (n : BitVec 7) (v : Half), ∃ r : Byte, wrreg n v = .wrw r v ∧ r.toNat = 2 * n.toNat

/-- R65: words written out bit by bit decode to their commands (a sanity statement). -/
def Obligations.WrittenOutWordsDecodeToTheirCommands : Prop :=
  decodeWord 0b00010000000010000000000000000000#32 = .instr (.rdw 0x08#8) ∧
  decodeWord 0b00100000010000000001001000110100#32 = .instr (.wrw 0x40#8 0x1234#16) ∧
  decodeWord 0b00110000001010110000000000000000#32 = .instr (.rdreg 0x2B#8) ∧
  decodeWord 0b01000000000101100000000000000000#32 = .instr (.decode 0x16#8) ∧
  decodeWord 0b01010000000000000000000000000000#32 = .instr .pollall

/-- R117, R53 (a), (b): a word that selects no row: exactly one ILLEGAL_CMD entry, no bus request, no state written. -/
def Obligations.IllegalWordIsRefusedWithOneEntry : Prop :=
  ∀ (s : State) (w : Word) (ws : List Word) (k : Nat), Accepts s w ws → s.cfg.admitted = true → s.rspReady = k + 1 →
    (∀ m : Mnemonic, w &&& m.mask ≠ m.matchWord) →
    ∃ l, step s = .next { s with
      cmdIn := ws
      rspReady := k
      lat := l
      trace := s.trace ++ [.command w, .entry (noValue .illegalCmd 0 0 true)] }

/-- A step of an IDLE block that is presented a legal word is that command's meaning in the state in which the word has been
accepted. -/
def Obligations.StepRunsTheAcceptedCommand : Prop :=
  ∀ (s : State) (w : Word) (ws : List Word) (i : Instr), Accepts s w ws → decodeWord w = .instr i →
    step s = exec i { s with cmdIn := ws, trace := s.trace ++ [.command w] }

/-! ### CSUM (40_checksum.md) -/

/-- R71: the sum with `csum8` is zero mod 256, and `csum8` is the only byte with that property. -/
def Obligations.ChecksumIsTheOnlyByteThatCompletesTheSum : Prop :=
  ∀ (bs : List Byte) (c : Byte), (byteSum bs + c.toNat) % 256 = 0 ↔ c = csum8 bs

/-- R73, R72: generate and validate agree. -/
def Obligations.GenerateAndValidateAgree : Prop :=
  (∀ r0 r1 : Byte, frameOk r0 r1 (csum8 [r0, r1]) = true) ∧
  (∀ r0 r1 r2 : Byte, frameOk r0 r1 r2 = true → r2 = csum8 [r0, r1]) ∧
  (∀ bs : List Byte, byteSum (bs ++ [csum8 bs]) % 256 = 0)

/-- R70: the equivalent form 'the 8-bit two's-complement negation of the 8-bit wrapped sum', and the result does not depend on
the order of the bytes. -/
def Obligations.ChecksumIsTheNegatedWrappedSumInAnyOrder : Prop :=
  (∀ bs : List Byte, csum8 bs = -(bs.foldl (· + ·) 0#8)) ∧
  (∀ bs cs : List Byte, bs.Perm cs → csum8 bs = csum8 cs)

/-- R75 (a), (b): every single-byte error of a valid reply is detected, the swap of its first two bytes is not. -/
def Obligations.ReplyCheckDetectsSingleByteErrorsAndNotTheSwap : Prop :=
  ∀ r0 r1 r2 x : Byte, frameOk r0 r1 r2 = true →
    (x ≠ r0 → frameOk x r1 r2 = false) ∧ (x ≠ r1 → frameOk r0 x r2 = false) ∧ (x ≠ r2 → frameOk r0 r1 x = false) ∧
      frameOk r1 r0 r2 = true

/-! ### FRAMER (41_framer.md) -/

/-- R54, R55, R61, R71, R83, R86: the two request records and their frames; the bytes of each frame and `ADDR7 << 1` sum to
zero mod 256, and the written value is carried low byte first. -/
def Obligations.CommandFramesSumToZeroWithTheAddressByte : Prop :=
  ∀ (addr7 : BitVec 7) (r : Byte) (v : Half),
    (∃ c : Byte, readRequest addr7 r = ⟨true, addr7, 2#3, 3#2, r, c, 0#8, 0#8⟩ ∧
      (2 * addr7.toNat + r.toNat + c.toNat) % 256 = 0) ∧
    (∃ lsb msb c : Byte, writeRequest addr7 r v = ⟨false, addr7, 4#3, 0#2, r, lsb, msb, c⟩ ∧
      v.toNat = lsb.toNat + 256 * msb.toNat ∧
      (2 * addr7.toNat + r.toNat + lsb.toNat + msb.toNat + c.toNat) % 256 = 0)

/-- R85: RDW makes one read transaction and emits one entry, and changes nothing else. -/
def Obligations.RdwReadsOneWireRegister : Prop :=
  ∀ (r : Byte) (s : State) (a : Xrsp) (rest : List Xrsp) (k : Nat),
    s.cfg.admitted = true → s.xrspIn = a :: rest → s.rspReady = k + 1 →
    ∃ l, exec (.rdw r) s = .next { s with
      phase := .idle
      xreq := none
      rsp := none
      xrspIn := rest
      rspReady := k
      lat := l
      trace := s.trace ++ [.request (readRequest s.addr7 r), .answer a, .entry (rawOutcome 0 r.toNat a)] }

/-- R87: WRW makes one write transaction and emits one entry, and changes nothing else; only the transport can fail. -/
def Obligations.WrwWritesOneWireRegister : Prop :=
  ∀ (r : Byte) (v : Half) (s : State) (a : Xrsp) (rest : List Xrsp) (k : Nat),
    s.cfg.admitted = true → s.xrspIn = a :: rest → s.rspReady = k + 1 →
    ∃ l, exec (.wrw r v) s = .next { s with
      phase := .idle
      xreq := none
      rsp := none
      xrspIn := rest
      rspReady := k
      lat := l
      trace := s.trace ++ [.request (writeRequest s.addr7 r v), .answer a,
        .entry (noValue (if a.ok = true then .ok else .xportErr) 0 r.toNat true)] }

/-! ### DECODER (42_decode.md) -/

/-- R90: RDREG of an index 0 to 0x2B makes one read transaction on wire byte `2n`, and changes nothing else. -/
def Obligations.RdregReadsTheRawWordOfAnIndex : Prop :=
  ∀ (n : Index) (s : State) (a : Xrsp) (rest : List Xrsp) (k : Nat),
    s.cfg.admitted = true → s.xrspIn = a :: rest → s.rspReady = k + 1 →
    ∃ l, exec (.rdreg (BitVec.ofNat 8 n.val)) s = .next { s with
      phase := .idle
      xreq := none
      rsp := none
      xrspIn := rest
      rspReady := k
      lat := l
      trace := s.trace ++ [.request (readRequest s.addr7 (BitVec.ofNat 8 (2 * n.val))), .answer a,
        .entry (rawOutcome n.val (2 * n.val) a)] }

/-- R118: RDREG or DECODE of an index above 0x2B: one BAD_INDEX entry with the operand in `WADDR`, no bus request, no state
written. -/
def Obligations.IndexAbove43IsRefusedWithOneEntry : Prop :=
  ∀ (n : Byte) (s : State) (k : Nat) (i : Instr), (i = .rdreg n ∨ i = .decode n) → 0x2B < n.toNat →
    s.cfg.admitted = true → s.rspReady = k + 1 →
    ∃ l, exec i s = .next { s with
      phase := .idle
      rsp := none
      rspReady := k
      lat := l
      trace := s.trace ++ [.entry (noValue .badIndex 0 n.toNat true)] }

/-- R97: DECODE that makes one read: of an index that is not paired, or of a paired one whose first read fails. The
statistics of that index are updated on success and nothing else is. -/
def Obligations.DecodeThatMakesOneRead : Prop :=
  ∀ (n : Index) (s : State) (a : Xrsp) (rest : List Xrsp) (k : Nat),
    s.cfg.admitted = true → s.xrspIn = a :: rest → s.rspReady = k + 1 →
    ((s.cfg.lut n).pair = false ∨ ¬ ValidReply a) →
    ∃ l, exec (.decode (BitVec.ofNat 8 n.val)) s = .next { s with
      phase := .idle
      xreq := none
      rsp := none
      xrspIn := rest
      rspReady := k
      lat := l
      stat := if ValidReply a then s.stat.set n.val (updated (s.statAt n) (replyValue a)) n.isLt else s.stat
      trace := s.trace ++ [.request (readRequest s.addr7 (BitVec.ofNat 8 (2 * n.val))), .answer a,
        .entry (if ValidReply a then
            decodeOutcome (s.cfg.lut n) n.val true (replyValue a) (updated (s.statAt n) (replyValue a))
          else noValue (failStatus a) n.val (2 * n.val) true)] }

/-- R97, R95: DECODE of a paired index whose first read succeeds: the second read is of index `n + 1`, the low word is that
of `n`; if the second read fails the first word is discarded, no statistics are written, and `WADDR` is the second wire
byte. -/
def Obligations.DecodeThatMakesTwoReads : Prop :=
  ∀ (n : Index) (s : State) (a b : Xrsp) (rest : List Xrsp) (k : Nat),
    s.cfg.admitted = true → s.xrspIn = a :: b :: rest → s.rspReady = k + 1 →
    (s.cfg.lut n).pair = true → ValidReply a →
    ∃ l, exec (.decode (BitVec.ofNat 8 n.val)) s = .next { s with
      phase := .idle
      xreq := none
      rsp := none
      xrspIn := rest
      rspReady := k
      lat := l
      stat := if ValidReply b then
          s.stat.set n.val (updated (s.statAt n) (replyValue a + 65536 * replyValue b)) n.isLt
        else s.stat
      trace := s.trace ++ [.request (readRequest s.addr7 (BitVec.ofNat 8 (2 * n.val))), .answer a,
        .request (readRequest s.addr7 (BitVec.ofNat 8 (2 * n.val + 2))), .answer b,
        .entry (if ValidReply b then
            decodeOutcome (s.cfg.lut n) n.val true (replyValue a + 65536 * replyValue b)
              (updated (s.statAt n) (replyValue a + 65536 * replyValue b))
          else noValue (failStatus b) n.val (2 * n.val + 2) true)] }

/-- R98: an index with no catalog entry is decoded like any other, and its scaled value denotes its raw value. -/
def Obligations.UnknownRegisterPassesThroughUnscaled : Prop :=
  ∀ (n : Index) (s : State) (a : Xrsp) (rest : List Xrsp) (k : Nat),
    s.cfg.admitted = true → s.xrspIn = a :: rest → s.rspReady = k + 1 → (s.cfg.lut n).known = false → ValidReply a →
    ∃ t e, exec (.decode (BitVec.ofNat 8 n.val)) s = .next t ∧ entriesOf (newEvents s t) = [e] ∧
      e.status = .ok ∧ e.kind = .scaled ∧ e.known = false ∧ e.value.toNat = replyValue a ∧
      e.phys.toNat = replyValue a * 2 ^ 24 ∧ t.statAt n = updated (s.statAt n) (replyValue a)

/-- R96: the product is kept whole; it cannot overflow 57 bits. -/
def Obligations.ScaledValueIsTheWholeProduct : Prop :=
  ∀ (value : Word) (recip : BitVec 25), (scale value recip).toNat = value.toNat * recip.toNat

/-- R94: the LUT entry of a scale: the sign is `PAIR`, zero is `BITF`, and `RECIP` is the rounded reciprocal of the
magnitude; a scale has an entry exactly when it is zero or its reciprocal fits. -/
def Obligations.ReciprocalIsRoundedToNearest : Prop :=
  ∀ s : Scale, s.den ≠ 0 →
    (s.num = 0 → LutEntry.ofScale s = some ⟨true, false, true, 0x1000000#25⟩) ∧
    (s.num ≠ 0 →
      let q : Int := ⌊(2 : ℚ) ^ 24 / |(s.num : ℚ) / (s.den : ℚ)| + 1 / 2⌋
      (1 ≤ q ∧ q ≤ 2 ^ 25 - 1 →
        ∃ e, LutEntry.ofScale s = some e ∧ e.known = true ∧ e.bitf = false ∧ (e.pair = true ↔ s.num < 0) ∧
          (e.recip.toNat : Int) = q) ∧
      (¬ (1 ≤ q ∧ q ≤ 2 ^ 25 - 1) → LutEntry.ofScale s = none))

/-- R100: the scaled value is off the document's quotient by at most `VALUE * 2^-25`, and equal to it when `2^24` divided by
the magnitude is an integer. -/
def Obligations.ScalerIsCloseToTheQuotient : Prop :=
  ∀ (s : Scale) (e : LutEntry) (value : Word), LutEntry.ofScale s = some e → s.num ≠ 0 →
    let m : ℚ := |(s.num : ℚ) / (s.den : ℚ)|
    |((scale value e.recip).toNat : ℚ) / 2 ^ 24 - (value.toNat : ℚ) / m| ≤ (value.toNat : ℚ) / 2 ^ 25 ∧
      ((∃ z : Int, (2 : ℚ) ^ 24 / m = z) → ((scale value e.recip).toNat : ℚ) / 2 ^ 24 = (value.toNat : ℚ) / m)

/-- R92, R96: the document's two worked examples hold whatever else the catalog holds: 16 at index 0x04 gives 0.5, and
65541 at index 0x16 gives 16385.25. -/
def Obligations.DocumentExamplesDecode : Prop :=
  ∀ (s : State) (rest : List Xrsp) (k : Nat), s.cfg.admitted = true → s.rspReady = k + 1 →
    (s.xrspIn = ⟨true, 0x10#8, 0x00#8, 0xF0#8⟩ :: rest →
      ∃ t e, exec (.decode 0x04#8) s = .next t ∧ entriesOf (newEvents s t) = [e] ∧ e.value = 16#32 ∧
        e.phys = 0x800000#57) ∧
    (s.xrspIn = ⟨true, 0x05#8, 0x00#8, 0xFB#8⟩ :: ⟨true, 0x01#8, 0x00#8, 0xFF#8⟩ :: rest →
      ∃ t e, exec (.decode 0x16#8) s = .next t ∧ entriesOf (newEvents s t) = [e] ∧ e.value = 65541#32 ∧
        e.phys = 0x4001400000#57)

/-- R31, R34: the transform doubles the index and is undone by its inverse, and every request of RDREG, DECODE and POLLALL is
a read of an even wire byte 0x00 to 0x56, however far the command runs. -/
def Obligations.IndexCommandsReadEvenWireBytes : Prop :=
  (∀ n : Index, (wire n.val).toNat = 2 * n.val ∧ indexOfWire (wire n.val) = n.val) ∧
  ∀ (i : Instr) (s t : State), i.mnemonic = .rdreg ∨ i.mnemonic = .decode ∨ i.mnemonic = .pollall →
    exec i s = .next t → ∀ q ∈ requestsOf (newEvents s t),
      q.rw = true ∧ q.addr = s.addr7 ∧ q.tx0.toNat % 2 = 0 ∧ q.tx0.toNat ≤ 0x56

/-- R93: a configuration that is not admitted is given no meaning: every command is refused by name. That the commands which
do not read the catalog are refused too is the model's choice (notes/assumptions/7). -/
def Obligations.UnadmittedCatalogIsRefused : Prop :=
  ∀ (i : Instr) (s : State), s.cfg.admitted = false → exec i s = .refused .catalogNotAdmitted

/-- R93, R92: a configuration is admitted exactly when every LUT entry satisfies (a) to (e) and the document's two rows stand.
That the two rows belong to the condition is the model's inference (notes/assumptions/8). -/
def Obligations.AdmissionIsTheFiveConditionsAndTheDocumentRows : Prop :=
  ∀ c : Config, c.admitted = true ↔
    (∀ n : Index, let e := c.lut n
      (e.known = false → e.pair = false ∧ e.bitf = false ∧ e.recip.toNat = 2 ^ 24) ∧
      ¬ (e.pair = true ∧ e.bitf = true) ∧
      (e.pair = true → n.val ≤ 42) ∧
      (e.bitf = false → 1 ≤ e.recip.toNat) ∧
      (e.bitf = true → e.recip.toNat = 2 ^ 24)) ∧
    c.lut 0x04 = ⟨true, false, false, 0x0080000#25⟩ ∧ c.lut 0x16 = ⟨true, true, false, 0x0400000#25⟩

/-! ### TRACKER (43_minmax_poll.md, 10_state.md R13, R14) -/

/-- R107 (c), (d), (e): after updates of index `n` with `vs`, from the reset entry, the maximum is that of the values, the
minimum that of 0xFFFF and the values, and every other entry is as before. -/
def Obligations.StatisticsAreTheExtremesOfTheValues : Prop :=
  ∀ (n : Index) (s : State) (vs : List Word), s.statAt n = StatEntry.atReset →
    let t := vs.foldl (fun u v => u.statUpdate n v) s
    (t.statAt n).max.toNat = vs.foldl (fun m v => Nat.max m v.toNat) 0 ∧
    (t.statAt n).min.toNat = vs.foldl (fun m v => Nat.min m v.toNat) 0xFFFF ∧
    ∀ m : Index, m ≠ n → t.statAt m = s.statAt m

/-- R14 (a), (b), (c): at every step from any state in which each statistics entry is in order: it stays in order, and
unless the step is a reset no minimum rises and no maximum falls. -/
def Obligations.StepKeepsTheStatisticsInOrder : Prop :=
  ∀ s t : State, s.StatOk → step s = .next t →
    t.StatOk ∧ (s.resetPin = false → ∀ n : Index,
      (t.statAt n).min.toNat ≤ (s.statAt n).min.toNat ∧ (s.statAt n).max.toNat ≤ (t.statAt n).max.toNat)

/-- R105, R107, R13: `STAT` is at every step exactly what the values of the decode entries reported since reset make of the
reset values: a failed decode, a raw command and a decode of another index leave no mark on it. -/
def Obligations.StatisticsAreDeterminedByTheReportedValues : Prop :=
  (∀ (c : Config) (sel : BitVec 3), (State.resetOf c sel).StatIsReported) ∧
  ∀ s t : State, s.Inv → s.StatIsReported → step s = .next t → t.StatIsReported

/-- R13, R105: RDW, WRW and RDREG never touch `STAT`, however far they run. -/
def Obligations.RawCommandsLeaveTheStatisticsAlone : Prop :=
  ∀ (i : Instr) (s t : State), i.mnemonic = .rdw ∨ i.mnemonic = .wrw ∨ i.mnemonic = .rdreg →
    exec i s = .next t → t.stat = s.stat

/-- R105, R97: DECODE of `n` writes no statistics entry but that of `n`, paired or not, however far it runs. -/
def Obligations.DecodeTouchesOnlyItsOwnStatistics : Prop :=
  ∀ (n : Byte) (s t : State) (m : Index), exec (.decode n) s = .next t → m.val ≠ n.toNat → t.statAt m = s.statAt m

/-- R97 (c), R106: in every successful decode entry that DECODE or POLLALL hands over, `MIN <= VALUE <= MAX`, and `SPAN` is
their difference without a borrow. -/
def Obligations.DecodedEntriesLieWithinTheirStatistics : Prop :=
  ∀ (i : Instr) (s t : State), i.mnemonic = .decode ∨ i.mnemonic = .pollall → exec i s = .next t →
    ∀ e ∈ entriesOf (newEvents s t), e.status = .ok →
      e.min.toNat ≤ e.value.toNat ∧ e.value.toNat ≤ e.max.toNat ∧ e.span.toNat = e.max.toNat - e.min.toNat

/-! ### POLLALL (43_minmax_poll.md) -/

/-- R108: with an answer for each transaction and a host that takes every entry, POLLALL ends IDLE with exactly 44 entries,
`IDX` ascending from 0 to 43 and `LAST` on the last alone, using at most `44 + P` answers; configuration, pins, `ADDR7` and
the command channel are as before. -/
def Obligations.PollallEmitsFortyFourEntriesInOrder : Prop :=
  ∀ (s : State) (k : Nat), s.cfg.admitted = true → 44 + pairCount s.cfg ≤ s.xrspIn.length → s.rspReady = k + 44 →
    ∃ t, exec .pollall s = .next t ∧ t.phase = .idle ∧ t.xreq = none ∧ t.rsp = none ∧ t.rspReady = k ∧
      (∃ used, used ≤ 44 + pairCount s.cfg ∧ t.xrspIn = s.xrspIn.drop used) ∧
      (∃ evs, t.trace = s.trace ++ evs ∧
        (entriesOf evs).map (fun e => (e.idx.toNat, e.last)) =
          (List.range 44).map (fun n => (n, n == 43))) ∧
      t.cfg = s.cfg ∧ t.addr7 = s.addr7 ∧ t.addrSel = s.addrSel ∧ t.resetPin = s.resetPin ∧ t.cmdIn = s.cmdIn

/-- R110: a cycle in which every transaction succeeds makes, for each index ascending, the read of `wire(n)` and directly
after it that of `wire(n+1)` if `n` is paired, so `44 + P` read transactions and no write. -/
def Obligations.CleanPollReadsEachIndexAndEachHighWord : Prop :=
  ∀ (s : State) (k : Nat), s.cfg.admitted = true → 44 + pairCount s.cfg ≤ s.xrspIn.length → s.rspReady = k + 44 →
    (∀ a ∈ s.xrspIn.take (44 + pairCount s.cfg), ValidReply a) →
    ∃ t, exec .pollall s = .next t ∧ (requestsOf (newEvents s t)).length = 44 + pairCount s.cfg ∧
      requestsOf (newEvents s t) = (List.finRange nreg).flatMap fun n =>
        readRequest s.addr7 (BitVec.ofNat 8 (2 * n.val)) ::
          if (s.cfg.lut n).pair = true then [readRequest s.addr7 (BitVec.ofNat 8 (2 * n.val + 2))] else []

/-- R109: what POLLALL reports and records for index `n` is what the decode of `n` alone makes of `STAT[n]` as it was and of
the answers to `n`'s own transactions: an error at one index has no effect on the decode of any other. -/
def Obligations.PollDecodesEachIndexOnItsOwn : Prop :=
  ∀ (s : State) (k : Nat), s.cfg.admitted = true → 44 + pairCount s.cfg ≤ s.xrspIn.length → s.rspReady = k + 44 →
    ∃ t, exec .pollall s = .next t ∧ ∀ n : Index, ∃ r e,
      bigDecodeOne s.cfg s.addr7 s.stat n (n.val == 43) (answersFrom s.cfg s.xrspIn n.val) = some r ∧
      entriesOf r.events = [e] ∧ (entriesOf (newEvents s t))[n.val]? = some e ∧ t.statAt n = r.stat.get n

/-! ### The machine as a whole (10_state.md, 20_memory.md, 60_exceptions.md, 70_reset_and_hazards.md) -/

/-- R20: whenever the oracle's answers suffice and the host takes every entry, a command does what the spec's pseudocode read
straight through does: the same statistics, the same requests, answers and entries in the same order, the same answers
left; nothing else changes but the latches and, in a POLLALL, `POLL_IDX`. -/
def Obligations.EveryCommandIsItsBigStep : Prop :=
  ∀ (i : Instr) (s : State) (r : BigResult), s.cfg.admitted = true → s.phase = .idle → s.controlOk = true →
    bigStep s.cfg s.addr7 s.stat i s.xrspIn = some r → (entriesOf r.events).length ≤ s.rspReady →
    ∃ l p, (i ≠ .pollall → p = s.pollIdx) ∧ exec i s = .next { s with
      stat := r.stat
      pollIdx := p
      lat := l
      xrspIn := r.rest
      rspReady := s.rspReady - (entriesOf r.events).length
      trace := s.trace ++ r.events }

/-- R17, R20, R38: inputs may come in pieces. A block that steps as far as its inputs allow, from the acceptance of a word in
IDLE or from where it waits, and steps again when further inputs `xs`, `k` have come, is where it would be had they all been
there at once; when it has become IDLE, or waits there for a word, the further inputs stand untouched. So how a run is cut
into steps (notes/assumptions/1) cannot be observed, and what a command does when its inputs come late is what the
statements about commands say it does when they are there. -/
def Obligations.InputsMayComeInPieces : Prop :=
  ∀ (s t : State) (xs : List Xrsp) (k : Nat), s.Inv → s.resetPin = false → step s = .next t →
    (t.phase = .idle → step (feed xs k s) = .next (feed xs k t)) ∧
    (t.phase ≠ .idle → step (feed xs k s) = step (feed xs k t))

/-- R12, R19, R121, R128: whatever the inputs, no command writes the configuration, the pins, the command channel or
`ADDR7`, none but POLLALL writes `POLL_IDX`, and what has been seen at the ports stays. -/
def Obligations.CommandsLeaveTheConfigurationAlone : Prop :=
  ∀ (i : Instr) (s t : State), exec i s = .next t →
    t.cfg = s.cfg ∧ t.resetPin = s.resetPin ∧ t.addrSel = s.addrSel ∧ t.cmdIn = s.cmdIn ∧ t.addr7 = s.addr7 ∧
      (i ≠ .pollall → t.pollIdx = s.pollIdx) ∧ ∃ evs, t.trace = s.trace ++ evs

/-- R12, R135, R148: `ADDR7` is written by reset alone, with the base and the pins of that moment; the configuration is never
written. -/
def Obligations.OnlyResetWritesTheDeviceAddress : Prop :=
  ∀ s t : State, step s = .next t → t.cfg = s.cfg ∧
    (s.resetPin = false → t.addr7 = s.addr7) ∧
    (s.resetPin = true → t.addr7.toNat = (s.cfg.mcuBase.toNat + s.addrSel.toNat) % 128)

/-- R135, R136, R21: asserting `RESET` in any state whatever puts the block in the reset state and abandons a command in
progress. The latches' values are not claimed; what the input channels hold afterwards is the model's choice
(notes/assumptions/12). -/
def Obligations.ResetPutsTheBlockInItsResetState : Prop :=
  ∀ s : State, s.resetPin = true → ∃ l, step s = .next { s with
    addr7 := BitVec.ofNat 7 (s.cfg.mcuBase.toNat + s.addrSel.toNat)
    stat := Vector.replicate nreg ⟨0x0000FFFF#32, 0x00000000#32⟩
    phase := .idle
    pollIdx := 0#6
    lat := l
    xreq := none
    rsp := none
    xrspIn := if s.xreq.isSome then s.xrspIn.drop 1 else s.xrspIn
    trace := s.trace ++ [.reset] }

/-- R16, R17, R38, R40, R14: the machine's invariant is kept by every step from every state that satisfies it: phase, command
and ports fit together with at most one request outstanding and at most one entry on offer, `POLL_IDX` is in range, the
port events stand in the order of the spec, and the statistics are in order. -/
def Obligations.StepKeepsTheMachineInvariant : Prop :=
  ∀ s t : State, s.Inv → step s = .next t → t.Inv

/-- R21: the invariant holds after reset, for every configuration and every setting of the pins. -/
def Obligations.ResetSatisfiesTheMachineInvariant : Prop :=
  ∀ (c : Config) (sel : BitVec 3), (State.resetOf c sel).Inv

/-- R117 to R123, R137: from every state that satisfies the invariant and has an admitted configuration, the step answers a next
state, which is such a state again; and so is the state after any move of the outside. That those moves are all there are is
the model's inference (notes/assumptions/16). -/
def Obligations.StatesInOrderStepToStatesInOrder : Prop :=
  ∀ s : State, s.Inv → s.cfg.admitted = true →
    (∃ t, step s = .next t ∧ t.Inv ∧ t.cfg.admitted = true) ∧
    ∀ m : EnvMove, (m.apply s).Inv ∧ (m.apply s).cfg.admitted = true

/-- R117 to R123, R137: from reset of an admitted configuration, whatever the outside does between the steps, every step has a
next state: no fault, no refusal, no lock-up. 'Whatever the outside does' is any sequence of the moves of `EnvMove`; that
those are all there are is the model's inference (notes/assumptions/16). -/
def Obligations.EveryReachableStateSteps : Prop :=
  ∀ s : State, Reachable s → s.Inv ∧ ∃ t, step s = .next t

/-- R17, R38 (c): a BUSY block accepts no command: the command channel is untouched and no acceptance is recorded. -/
def Obligations.BusyBlockAcceptsNoCommand : Prop :=
  ∀ s t : State, s.resetPin = false → s.phase ≠ .idle → step s = .next t →
    t.cmdIn = s.cmdIn ∧ ∀ w, Event.command w ∉ newEvents s t

/-- R144: while the transport is silent the block waits for ever: any number of steps leaves it as it is. -/
def Obligations.SilentTransportHangsTheBlock : Prop :=
  ∀ (s : State) (k : Nat), s.resetPin = false → s.controlOk = true → s.cfg.admitted = true →
    s.phase = .xfer1 ∨ s.phase = .xfer2 → s.xrspIn = [] → core.run k s = .next s

/-- R145: while the host takes nothing the block waits with its entry on offer. -/
def Obligations.UntakenEntryStallsTheBlock : Prop :=
  ∀ (s : State) (k : Nat), s.resetPin = false → s.controlOk = true → s.cfg.admitted = true →
    s.phase = .respond → s.rspReady = 0 → core.run k s = .next s

/-- D12, R144: if the transport is assumed to answer every request and does, a waiting block goes on: its step uses at least
one answer up. -/
def Obligations.LiveTransportMovesTheBlock : Prop :=
  ∀ s : State, s.cfg.transportLive = true → s.TransportKeepsUp → s.resetPin = false → s.controlOk = true →
    s.cfg.admitted = true → s.phase = .xfer1 ∨ s.phase = .xfer2 →
    ∃ t, step s = .next t ∧ t.xrspIn.length < s.xrspIn.length

/-- R17, R84: a command whose first answer has not come has issued exactly its first request and waits in XFER1. -/
def Obligations.CommandWithoutAnAnswerWaits : Prop :=
  ∀ (s : State) (r : Byte) (v : Half) (n : Index), s.cfg.admitted = true → s.xrspIn = [] →
    (∃ l, exec (.rdw r) s = .next { s with
      phase := .xfer1, xreq := some (readRequest s.addr7 r), lat := l
      trace := s.trace ++ [.request (readRequest s.addr7 r)] }) ∧
    (∃ l, exec (.wrw r v) s = .next { s with
      phase := .xfer1, xreq := some (writeRequest s.addr7 r v), lat := l
      trace := s.trace ++ [.request (writeRequest s.addr7 r v)] }) ∧
    (∀ i, i = .rdreg (BitVec.ofNat 8 n.val) ∨ i = .decode (BitVec.ofNat 8 n.val) → ∃ l, exec i s = .next { s with
      phase := .xfer1, xreq := some (readRequest s.addr7 (BitVec.ofNat 8 (2 * n.val))), lat := l
      trace := s.trace ++ [.request (readRequest s.addr7 (BitVec.ofNat 8 (2 * n.val)))] }) ∧
    (∃ l, exec .pollall s = .next { s with
      phase := .xfer1, pollIdx := 0#6, xreq := some (readRequest s.addr7 0#8), lat := l
      trace := s.trace ++ [.request (readRequest s.addr7 0#8)] })

/-- R16, R18: the latches and `POLL_IDX` outside a command have no effect: two states that differ in them alone step to
outcomes that differ in them alone. -/
def Obligations.LatchesHaveNoEffectOutsideACommand : Prop :=
  ∀ s t : State, s.LatchAlike t → OutcomesAlike (step s) (step t)

/-! ### The records of the ports (30_encoding.md R60 to R62) -/

/-- R60, R63, R64: every field of a response entry stands at its bits, the reserved bits are zero, and `STATUS` and `KIND` have
the numbers of the two code tables. -/
def Obligations.ResponseEntryFieldsStandAtTheirBits : Prop :=
  (Status.ok.code = 0#3 ∧ Status.csumErr.code = 1#3 ∧ Status.xportErr.code = 2#3 ∧ Status.illegalCmd.code = 3#3 ∧
    Status.badIndex.code = 4#3) ∧
  (Kind.none.code = 0#2 ∧ Kind.raw.code = 1#2 ∧ Kind.scaled.code = 2#2 ∧ Kind.bitfield.code = 3#2) ∧
  ∀ e : Entry, let w := e.pack
    w.extractLsb' 0 3 = e.status.code ∧ w.extractLsb' 3 2 = e.kind.code ∧ w.getLsbD 5 = e.known ∧
    w.getLsbD 6 = e.pair ∧ w.getLsbD 7 = e.last ∧ w.extractLsb' 8 6 = e.idx ∧ w.extractLsb' 14 2 = 0#2 ∧
    w.extractLsb' 16 8 = e.waddr ∧ w.extractLsb' 24 8 = 0#8 ∧ w.extractLsb' 32 32 = e.value ∧
    w.extractLsb' 64 32 = e.min ∧ w.extractLsb' 96 32 = e.max ∧ w.extractLsb' 128 32 = e.span ∧
    w.extractLsb' 160 57 = e.phys ∧ w.extractLsb' 217 7 = 0#7

/-- R61, R62: the fields of a request record, of an answer record and of a LUT word stand at their bits, the reserved bits are
zero, and an answer record is read back as it was. -/
def Obligations.TransportAndLutFieldsStandAtTheirBits : Prop :=
  (∀ q : Xreq, let w := q.pack
    w.getLsbD 0 = q.rw ∧ w.extractLsb' 1 7 = q.addr ∧ w.extractLsb' 8 3 = q.txLen ∧ w.extractLsb' 11 2 = q.rxLen ∧
    w.extractLsb' 13 3 = 0#3 ∧ w.extractLsb' 16 8 = q.tx0 ∧ w.extractLsb' 24 8 = q.tx1 ∧ w.extractLsb' 32 8 = q.tx2 ∧
    w.extractLsb' 40 8 = q.tx3) ∧
  (∀ a : Xrsp, let w := a.pack
    w.getLsbD 0 = a.ok ∧ w.extractLsb' 1 7 = 0#7 ∧ w.extractLsb' 8 8 = a.rx0 ∧ w.extractLsb' 16 8 = a.rx1 ∧
    w.extractLsb' 24 8 = a.rx2 ∧ Xrsp.unpack w = a) ∧
  (∀ e : LutEntry, let w := e.pack
    w.extractLsb' 0 25 = e.recip ∧ w.getLsbD 25 = e.bitf ∧ w.getLsbD 26 = e.pair ∧ w.getLsbD 27 = e.known)
end

