-- ==== Sys2Proof/Laws/PerInstr.lean ====
section
/-! SUPPORT. What is said of every command one by one: the four fields of its word (30_encoding.md R50, R65). -/

namespace Sys2Proof.Laws.Fields

open Sys2Proof

/-- `OP` of a command (30_encoding.md R51). -/
def opcode : Instr → BitVec 4
  | .rdw _ => 0x1#4
  | .wrw _ _ => 0x2#4
  | .rdreg _ => 0x3#4
  | .decode _ => 0x4#4
  | .pollall => 0x5#4

/-- `A` of a command (30_encoding.md R51). -/
def operandA : Instr → Byte
  | .rdw r => r
  | .wrw r _ => r
  | .rdreg n => n
  | .decode n => n
  | .pollall => 0#8

/-- `V` of a command (30_encoding.md R51). -/
def operandV : Instr → Half
  | .rdw _ => 0#16
  | .wrw _ v => v
  | .rdreg _ => 0#16
  | .decode _ => 0#16
  | .pollall => 0#16

/-- The fields of the encoded word are the command's opcode, zero, and its operands. -/
def Statement (i : Instr) : Prop :=
  opField (encodeWord i) = opcode i ∧ zField (encodeWord i) = 0#4 ∧
    aField (encodeWord i) = operandA i ∧ vField (encodeWord i) = operandV i

/-- The fields of a word written as three parts. -/
theorem of_parts (p : BitVec 8) (a : Byte) (v : Half) :
    opField (p ++ a ++ v) = p.extractLsb' 4 4 ∧ zField (p ++ a ++ v) = p.extractLsb' 0 4 ∧
      aField (p ++ a ++ v) = a ∧ vField (p ++ a ++ v) = v := by
  refine ⟨?_, ?_, ?_, ?_⟩ <;> apply BitVec.eq_of_getLsbD_eq <;> intro i hi <;>
    simp only [opField, zField, aField, vField, BitVec.getLsbD_extractLsb', BitVec.getLsbD_append] <;>
    grind

theorem rdw (r : Byte) : Statement (.rdw r) := of_parts _ r 0#16

theorem wrw (r : Byte) (v : Half) : Statement (.wrw r v) := of_parts _ r v

theorem rdreg (n : Byte) : Statement (.rdreg n) := of_parts _ n 0#16

theorem decode (n : Byte) : Statement (.decode n) := of_parts _ n 0#16

theorem pollall : Statement .pollall := ⟨by decide, by decide, by decide, by decide⟩

end Sys2Proof.Laws.Fields
end

