-- ==== Sys2Proof/Laws/Decode.lean ====
section
/-! SUPPORT. The decoder by the four fields of the word (30_encoding.md R50). -/

namespace Sys2Proof

/-- A word is its four fields. -/
theorem word_ext {w w' : Word} (ho : opField w = opField w') (hz : zField w = zField w') (ha : aField w = aField w')
    (hv : vField w = vField w') : w = w' := by
  apply BitVec.eq_of_getLsbD_eq
  intro i hi
  have e1 := congrArg (fun x => x.getLsbD (i - 28)) ho
  have e2 := congrArg (fun x => x.getLsbD (i - 24)) hz
  have e3 := congrArg (fun x => x.getLsbD (i - 16)) ha
  have e4 := congrArg (fun x => x.getLsbD i) hv
  simp only [opField, zField, aField, vField, BitVec.getLsbD_extractLsb'] at e1 e2 e3 e4
  grind

/-- The fields of a word that decodes to a command are the command's. -/
theorem fields_of_decodeWord {w : Word} {i : Instr} (h : decodeWord w = .instr i) :
    opField w = Laws.Fields.opcode i ∧ zField w = 0#4 ∧ aField w = Laws.Fields.operandA i ∧
      vField w = Laws.Fields.operandV i := by
  unfold decodeWord needZeroV at h
  split at h <;> [skip; cases h]
  repeat' split at h
  all_goals first
    | cases h; done
    | (injection h with h; subst h
       simp_all [Laws.Fields.opcode, Laws.Fields.operandA, Laws.Fields.operandV])

end Sys2Proof
end

