-- ==== Sys2Proof/Laws/Operands.lean ====
section
/-! SUPPORT. The operand forms, the reply of a read transaction, the statistics update and the scaler in plain arithmetic on
naturals: one lemma per function of Machine/Operands.lean, Machine/Csum.lean, Machine/Tracker.lean and the scaler. -/

namespace Sys2Proof.Machine

open Sys2Proof

theorem dirByte_toNat (a : BitVec 7) : (dirByte a).toNat = 2 * a.toNat := by
  have := a.isLt
  simp [dirByte, Nat.shiftLeft_eq]
  omega

theorem addressOf_toNat (b : BitVec 7) (sel : BitVec 3) : (addressOf b sel).toNat = (b.toNat + sel.toNat) % 128 := by
  have := sel.isLt
  simp [addressOf]

/-- The split of a written value loses nothing (30_encoding.md R55). -/
theorem value_of_lsb_msb (v : Half) : v.toNat = (lsbOf v).toNat + 256 * (msbOf v).toNat := by
  have := v.isLt
  have h : ∀ x : Nat, x &&& 255 = x % 256 := fun x => Nat.and_two_pow_sub_one_eq_mod x 8
  simp [lsbOf, msbOf, Nat.shiftRight_eq_div_pow, h]
  omega

theorem wire_eq (n : Nat) : wire n = BitVec.ofNat 8 (2 * n) := by
  apply BitVec.eq_of_toNat_eq
  simp [wire, Nat.shiftLeft_eq]
  omega

theorem wire_toNat (n : Index) : (wire n.val).toNat = 2 * n.val := by
  have h : n.val < 44 := n.isLt
  rw [wire_eq, BitVec.toNat_ofNat]
  omega

theorem indexOfByte_ofNat (n : Index) : indexOfByte (BitVec.ofNat 8 n.val) = some n := by
  have h : n.val < 44 := n.isLt
  have e : (BitVec.ofNat 8 n.val).toNat = n.val := by rw [BitVec.toNat_ofNat]; omega
  simp [indexOfByte, e, h]

theorem indexOfByte_none {a : Byte} (h : 0x2B < a.toNat) : indexOfByte a = none := by
  have h' : ¬ a.toNat < 44 := by omega
  simp [indexOfByte, h']

theorem indexOfByte_some {a : Byte} {n : Index} (h : indexOfByte a = some n) : a.toNat = n.val := by
  unfold indexOfByte at h
  split at h
  · injection h with h; rw [← h]
  · cases h

theorem idxBits_toNat (n : Index) : (idxBits n).toNat = n.val := by
  have h : n.val < 44 := n.isLt
  simp only [idxBits, BitVec.toNat_ofNat]
  omega

theorem idxBits_injective {m n : Index} (h : idxBits m = idxBits n) : m = n := by
  have := congrArg BitVec.toNat h
  rw [idxBits_toNat, idxBits_toNat] at this
  exact Fin.ext this

theorem indexOfPoll_idxBits (n : Index) : indexOfPoll (idxBits n) = some n := by
  have h : n.val < 44 := n.isLt
  simp [indexOfPoll, idxBits_toNat, h]

theorem indexOfPoll_some {p : BitVec 6} {n : Index} (h : indexOfPoll p = some n) : p.toNat = n.val ∧ p = idxBits n := by
  unfold indexOfPoll at h
  split at h
  · injection h with h
    have e : p.toNat = n.val := by rw [← h]
    exact ⟨e, BitVec.eq_of_toNat_eq (by rw [idxBits_toNat, e])⟩
  · cases h

/-- Concatenation by shift and or is addition where the bits do not overlap. -/
theorem or_shift_add (x y k : Nat) (h : x < 2 ^ k) : x ||| (y * 2 ^ k) = x + 2 ^ k * y := by
  rw [Nat.mul_comm y, Nat.or_comm, Nat.add_comm, Nat.two_pow_add_eq_or_of_lt h]

theorem rawOfReply_toNat (r0 r1 : Byte) : (rawOfReply r0 r1).toNat = r0.toNat + 256 * r1.toNat := by
  have h0 := r0.isLt
  have h1 := r1.isLt
  simp only [rawOfReply, BitVec.toNat_or, BitVec.toNat_setWidth, BitVec.toNat_shiftLeft, Nat.shiftLeft_eq]
  rw [show r1.toNat % 2 ^ 16 * 2 ^ 8 % 2 ^ 16 = r1.toNat * 2 ^ 8 by omega,
    show r0.toNat % 2 ^ 16 = r0.toNat by omega, or_shift_add _ _ _ h0]
  omega

theorem pairCombine_toNat (lo hi : Half) : (pairCombine lo hi).toNat = lo.toNat + 65536 * hi.toNat := by
  have h0 := lo.isLt
  have h1 := hi.isLt
  simp only [pairCombine, BitVec.toNat_or, BitVec.toNat_setWidth, BitVec.toNat_shiftLeft, Nat.shiftLeft_eq]
  rw [show hi.toNat % 2 ^ 32 * 2 ^ 16 % 2 ^ 32 = hi.toNat * 2 ^ 16 by omega,
    show lo.toNat % 2 ^ 32 = lo.toNat by omega, or_shift_add _ _ _ h0]
  omega

theorem frameOk_iff (r0 r1 r2 : Byte) : frameOk r0 r1 r2 = true ↔ (r0.toNat + r1.toNat + r2.toNat) % 256 = 0 := by
  simp [frameOk, byteSum, Nat.add_assoc]

/-- What a read transaction returns, in all three cases (41_framer.md R84, 60_exceptions.md R122). -/
theorem replyWord_cases (a : Xrsp) :
    (a.ok = false ∧ replyWord a = .error .transport) ∨
    (a.ok = true ∧ (a.rx0.toNat + a.rx1.toNat + a.rx2.toNat) % 256 ≠ 0 ∧ replyWord a = .error .checksum) ∨
    (a.ok = true ∧ (a.rx0.toNat + a.rx1.toNat + a.rx2.toNat) % 256 = 0 ∧
      replyWord a = .ok (rawOfReply a.rx0 a.rx1)) := by
  unfold replyWord
  cases hok : a.ok
  · simp
  · cases hf : frameOk a.rx0 a.rx1 a.rx2
    · have := (frameOk_iff a.rx0 a.rx1 a.rx2).not.1 (by simp [hf])
      simp [this]
    · have := (frameOk_iff a.rx0 a.rx1 a.rx2).1 hf
      simp [this]

theorem update_toNat (e : StatEntry) (v : Word) :
    (e.update v).min.toNat = Nat.min e.min.toNat v.toNat ∧ (e.update v).max.toNat = Nat.max e.max.toNat v.toNat := by
  constructor
  · simp only [StatEntry.update]
    split <;> simp only [Nat.min_def] <;> split <;> omega
  · simp only [StatEntry.update]
    split <;> simp only [Nat.max_def] <;> split <;> omega

/-- After an update the value lies between the two extremes (43_minmax_poll.md R106). -/
theorem update_bounds (e : StatEntry) (v : Word) :
    (e.update v).min.toNat ≤ v.toNat ∧ v.toNat ≤ (e.update v).max.toNat := by
  obtain ⟨h1, h2⟩ := update_toNat e v
  rw [h1, h2]
  exact ⟨Nat.min_le_right _ _, Nat.le_max_right _ _⟩

/-- An update never raises the minimum nor lowers the maximum (10_state.md R14 (b)). -/
theorem update_monotone (e : StatEntry) (v : Word) :
    (e.update v).min.toNat ≤ e.min.toNat ∧ e.max.toNat ≤ (e.update v).max.toNat := by
  obtain ⟨h1, h2⟩ := update_toNat e v
  rw [h1, h2]
  exact ⟨Nat.min_le_left _ _, Nat.le_max_left _ _⟩

/-- The span never borrows where the minimum is at most the maximum (43_minmax_poll.md R106). -/
theorem span_toNat {e : StatEntry} (h : e.min.toNat ≤ e.max.toNat) : e.span.toNat = e.max.toNat - e.min.toNat := by
  have h1 := e.max.isLt
  have h2 := e.min.isLt
  simp only [StatEntry.span, BitVec.toNat_sub]
  omega

end Sys2Proof.Machine
end

