-- ==== Sys2Proof/Laws/State.lean ====
section
/-! SUPPORT. What each named operation of Machine/Ops.lean does to each field of the state: one lemma per field, so that no
proof unfolds a record update. -/

namespace Sys2Proof.Machine

open Sys2Proof

variable (s : State)

@[simp] theorem State.latchWord_cfg (w : Word) : (s.latchWord w).cfg = s.cfg := rfl
@[simp] theorem State.latchWord_resetPin (w : Word) : (s.latchWord w).resetPin = s.resetPin := rfl
@[simp] theorem State.latchWord_addrSel (w : Word) : (s.latchWord w).addrSel = s.addrSel := rfl
@[simp] theorem State.latchWord_cmdIn (w : Word) : (s.latchWord w).cmdIn = s.cmdIn := rfl
@[simp] theorem State.latchWord_xrspIn (w : Word) : (s.latchWord w).xrspIn = s.xrspIn := rfl
@[simp] theorem State.latchWord_rspReady (w : Word) : (s.latchWord w).rspReady = s.rspReady := rfl
@[simp] theorem State.latchWord_addr7 (w : Word) : (s.latchWord w).addr7 = s.addr7 := rfl
@[simp] theorem State.latchWord_stat (w : Word) : (s.latchWord w).stat = s.stat := rfl
@[simp] theorem State.latchWord_phase (w : Word) : (s.latchWord w).phase = s.phase := rfl
@[simp] theorem State.latchWord_pollIdx (w : Word) : (s.latchWord w).pollIdx = s.pollIdx := rfl
@[simp] theorem State.latchWord_lat (w : Word) : (s.latchWord w).lat = { s.lat with cmd := w } := rfl
@[simp] theorem State.latchWord_xreq (w : Word) : (s.latchWord w).xreq = s.xreq := rfl
@[simp] theorem State.latchWord_rsp (w : Word) : (s.latchWord w).rsp = s.rsp := rfl
@[simp] theorem State.latchWord_trace (w : Word) : (s.latchWord w).trace = s.trace := rfl

@[simp] theorem State.accept_cfg (w : Word) (ws : List Word) : (s.accept w ws).cfg = s.cfg := rfl
@[simp] theorem State.accept_resetPin (w : Word) (ws : List Word) : (s.accept w ws).resetPin = s.resetPin := rfl
@[simp] theorem State.accept_addrSel (w : Word) (ws : List Word) : (s.accept w ws).addrSel = s.addrSel := rfl
@[simp] theorem State.accept_cmdIn (w : Word) (ws : List Word) : (s.accept w ws).cmdIn = ws := rfl
@[simp] theorem State.accept_xrspIn (w : Word) (ws : List Word) : (s.accept w ws).xrspIn = s.xrspIn := rfl
@[simp] theorem State.accept_rspReady (w : Word) (ws : List Word) : (s.accept w ws).rspReady = s.rspReady := rfl
@[simp] theorem State.accept_addr7 (w : Word) (ws : List Word) : (s.accept w ws).addr7 = s.addr7 := rfl
@[simp] theorem State.accept_stat (w : Word) (ws : List Word) : (s.accept w ws).stat = s.stat := rfl
@[simp] theorem State.accept_phase (w : Word) (ws : List Word) : (s.accept w ws).phase = s.phase := rfl
@[simp] theorem State.accept_pollIdx (w : Word) (ws : List Word) : (s.accept w ws).pollIdx = s.pollIdx := rfl
@[simp] theorem State.accept_lat (w : Word) (ws : List Word) : (s.accept w ws).lat = s.lat := rfl
@[simp] theorem State.accept_xreq (w : Word) (ws : List Word) : (s.accept w ws).xreq = s.xreq := rfl
@[simp] theorem State.accept_rsp (w : Word) (ws : List Word) : (s.accept w ws).rsp = s.rsp := rfl
@[simp] theorem State.accept_trace (w : Word) (ws : List Word) :
    (s.accept w ws).trace = s.trace ++ [.command w] := rfl

@[simp] theorem State.issue_cfg (ph : Phase) (q : Xreq) : (s.issue ph q).cfg = s.cfg := rfl
@[simp] theorem State.issue_resetPin (ph : Phase) (q : Xreq) : (s.issue ph q).resetPin = s.resetPin := rfl
@[simp] theorem State.issue_addrSel (ph : Phase) (q : Xreq) : (s.issue ph q).addrSel = s.addrSel := rfl
@[simp] theorem State.issue_cmdIn (ph : Phase) (q : Xreq) : (s.issue ph q).cmdIn = s.cmdIn := rfl
@[simp] theorem State.issue_xrspIn (ph : Phase) (q : Xreq) : (s.issue ph q).xrspIn = s.xrspIn := rfl
@[simp] theorem State.issue_rspReady (ph : Phase) (q : Xreq) : (s.issue ph q).rspReady = s.rspReady := rfl
@[simp] theorem State.issue_addr7 (ph : Phase) (q : Xreq) : (s.issue ph q).addr7 = s.addr7 := rfl
@[simp] theorem State.issue_stat (ph : Phase) (q : Xreq) : (s.issue ph q).stat = s.stat := rfl
@[simp] theorem State.issue_phase (ph : Phase) (q : Xreq) : (s.issue ph q).phase = ph := rfl
@[simp] theorem State.issue_pollIdx (ph : Phase) (q : Xreq) : (s.issue ph q).pollIdx = s.pollIdx := rfl
@[simp] theorem State.issue_lat (ph : Phase) (q : Xreq) :
    (s.issue ph q).lat = { s.lat with tx := #v[q.tx0, q.tx1, q.tx2, q.tx3] } := rfl
@[simp] theorem State.issue_xreq (ph : Phase) (q : Xreq) : (s.issue ph q).xreq = some q := rfl
@[simp] theorem State.issue_rsp (ph : Phase) (q : Xreq) : (s.issue ph q).rsp = s.rsp := rfl
@[simp] theorem State.issue_trace (ph : Phase) (q : Xreq) : (s.issue ph q).trace = s.trace ++ [.request q] := rfl

@[simp] theorem State.receive_cfg (a : Xrsp) (rest : List Xrsp) : (s.receive a rest).cfg = s.cfg := rfl
@[simp] theorem State.receive_resetPin (a : Xrsp) (rest : List Xrsp) : (s.receive a rest).resetPin = s.resetPin := rfl
@[simp] theorem State.receive_addrSel (a : Xrsp) (rest : List Xrsp) : (s.receive a rest).addrSel = s.addrSel := rfl
@[simp] theorem State.receive_cmdIn (a : Xrsp) (rest : List Xrsp) : (s.receive a rest).cmdIn = s.cmdIn := rfl
@[simp] theorem State.receive_xrspIn (a : Xrsp) (rest : List Xrsp) : (s.receive a rest).xrspIn = rest := rfl
@[simp] theorem State.receive_rspReady (a : Xrsp) (rest : List Xrsp) : (s.receive a rest).rspReady = s.rspReady := rfl
@[simp] theorem State.receive_addr7 (a : Xrsp) (rest : List Xrsp) : (s.receive a rest).addr7 = s.addr7 := rfl
@[simp] theorem State.receive_stat (a : Xrsp) (rest : List Xrsp) : (s.receive a rest).stat = s.stat := rfl
@[simp] theorem State.receive_phase (a : Xrsp) (rest : List Xrsp) : (s.receive a rest).phase = s.phase := rfl
@[simp] theorem State.receive_pollIdx (a : Xrsp) (rest : List Xrsp) : (s.receive a rest).pollIdx = s.pollIdx := rfl
@[simp] theorem State.receive_lat (a : Xrsp) (rest : List Xrsp) :
    (s.receive a rest).lat = { s.lat with rx := if a.ok then #v[a.rx0, a.rx1, a.rx2] else s.lat.rx } := rfl
@[simp] theorem State.receive_xreq (a : Xrsp) (rest : List Xrsp) : (s.receive a rest).xreq = none := rfl
@[simp] theorem State.receive_rsp (a : Xrsp) (rest : List Xrsp) : (s.receive a rest).rsp = s.rsp := rfl
@[simp] theorem State.receive_trace (a : Xrsp) (rest : List Xrsp) :
    (s.receive a rest).trace = s.trace ++ [.answer a] := rfl

@[simp] theorem State.latchLo_cfg (v : Half) : (s.latchLo v).cfg = s.cfg := rfl
@[simp] theorem State.latchLo_resetPin (v : Half) : (s.latchLo v).resetPin = s.resetPin := rfl
@[simp] theorem State.latchLo_addrSel (v : Half) : (s.latchLo v).addrSel = s.addrSel := rfl
@[simp] theorem State.latchLo_cmdIn (v : Half) : (s.latchLo v).cmdIn = s.cmdIn := rfl
@[simp] theorem State.latchLo_xrspIn (v : Half) : (s.latchLo v).xrspIn = s.xrspIn := rfl
@[simp] theorem State.latchLo_rspReady (v : Half) : (s.latchLo v).rspReady = s.rspReady := rfl
@[simp] theorem State.latchLo_addr7 (v : Half) : (s.latchLo v).addr7 = s.addr7 := rfl
@[simp] theorem State.latchLo_stat (v : Half) : (s.latchLo v).stat = s.stat := rfl
@[simp] theorem State.latchLo_phase (v : Half) : (s.latchLo v).phase = s.phase := rfl
@[simp] theorem State.latchLo_pollIdx (v : Half) : (s.latchLo v).pollIdx = s.pollIdx := rfl
@[simp] theorem State.latchLo_lat (v : Half) : (s.latchLo v).lat = { s.lat with rawLo := v } := rfl
@[simp] theorem State.latchLo_xreq (v : Half) : (s.latchLo v).xreq = s.xreq := rfl
@[simp] theorem State.latchLo_rsp (v : Half) : (s.latchLo v).rsp = s.rsp := rfl
@[simp] theorem State.latchLo_trace (v : Half) : (s.latchLo v).trace = s.trace := rfl

@[simp] theorem State.latchHi_cfg (v : Half) : (s.latchHi v).cfg = s.cfg := rfl
@[simp] theorem State.latchHi_resetPin (v : Half) : (s.latchHi v).resetPin = s.resetPin := rfl
@[simp] theorem State.latchHi_addrSel (v : Half) : (s.latchHi v).addrSel = s.addrSel := rfl
@[simp] theorem State.latchHi_cmdIn (v : Half) : (s.latchHi v).cmdIn = s.cmdIn := rfl
@[simp] theorem State.latchHi_xrspIn (v : Half) : (s.latchHi v).xrspIn = s.xrspIn := rfl
@[simp] theorem State.latchHi_rspReady (v : Half) : (s.latchHi v).rspReady = s.rspReady := rfl
@[simp] theorem State.latchHi_addr7 (v : Half) : (s.latchHi v).addr7 = s.addr7 := rfl
@[simp] theorem State.latchHi_stat (v : Half) : (s.latchHi v).stat = s.stat := rfl
@[simp] theorem State.latchHi_phase (v : Half) : (s.latchHi v).phase = s.phase := rfl
@[simp] theorem State.latchHi_pollIdx (v : Half) : (s.latchHi v).pollIdx = s.pollIdx := rfl
@[simp] theorem State.latchHi_lat (v : Half) : (s.latchHi v).lat = { s.lat with rawHi := v } := rfl
@[simp] theorem State.latchHi_xreq (v : Half) : (s.latchHi v).xreq = s.xreq := rfl
@[simp] theorem State.latchHi_rsp (v : Half) : (s.latchHi v).rsp = s.rsp := rfl
@[simp] theorem State.latchHi_trace (v : Half) : (s.latchHi v).trace = s.trace := rfl

@[simp] theorem State.putStat_cfg (n : Index) (e : StatEntry) : (s.putStat n e).cfg = s.cfg := rfl
@[simp] theorem State.putStat_resetPin (n : Index) (e : StatEntry) : (s.putStat n e).resetPin = s.resetPin := rfl
@[simp] theorem State.putStat_addrSel (n : Index) (e : StatEntry) : (s.putStat n e).addrSel = s.addrSel := rfl
@[simp] theorem State.putStat_cmdIn (n : Index) (e : StatEntry) : (s.putStat n e).cmdIn = s.cmdIn := rfl
@[simp] theorem State.putStat_xrspIn (n : Index) (e : StatEntry) : (s.putStat n e).xrspIn = s.xrspIn := rfl
@[simp] theorem State.putStat_rspReady (n : Index) (e : StatEntry) : (s.putStat n e).rspReady = s.rspReady := rfl
@[simp] theorem State.putStat_addr7 (n : Index) (e : StatEntry) : (s.putStat n e).addr7 = s.addr7 := rfl
@[simp] theorem State.putStat_stat (n : Index) (e : StatEntry) :
    (s.putStat n e).stat = s.stat.set n.val e n.isLt := rfl
@[simp] theorem State.putStat_phase (n : Index) (e : StatEntry) : (s.putStat n e).phase = s.phase := rfl
@[simp] theorem State.putStat_pollIdx (n : Index) (e : StatEntry) : (s.putStat n e).pollIdx = s.pollIdx := rfl
@[simp] theorem State.putStat_lat (n : Index) (e : StatEntry) : (s.putStat n e).lat = s.lat := rfl
@[simp] theorem State.putStat_xreq (n : Index) (e : StatEntry) : (s.putStat n e).xreq = s.xreq := rfl
@[simp] theorem State.putStat_rsp (n : Index) (e : StatEntry) : (s.putStat n e).rsp = s.rsp := rfl
@[simp] theorem State.putStat_trace (n : Index) (e : StatEntry) : (s.putStat n e).trace = s.trace := rfl

@[simp] theorem State.offer_cfg (e : Entry) : (s.offer e).cfg = s.cfg := rfl
@[simp] theorem State.offer_resetPin (e : Entry) : (s.offer e).resetPin = s.resetPin := rfl
@[simp] theorem State.offer_addrSel (e : Entry) : (s.offer e).addrSel = s.addrSel := rfl
@[simp] theorem State.offer_cmdIn (e : Entry) : (s.offer e).cmdIn = s.cmdIn := rfl
@[simp] theorem State.offer_xrspIn (e : Entry) : (s.offer e).xrspIn = s.xrspIn := rfl
@[simp] theorem State.offer_rspReady (e : Entry) : (s.offer e).rspReady = s.rspReady := rfl
@[simp] theorem State.offer_addr7 (e : Entry) : (s.offer e).addr7 = s.addr7 := rfl
@[simp] theorem State.offer_stat (e : Entry) : (s.offer e).stat = s.stat := rfl
@[simp] theorem State.offer_phase (e : Entry) : (s.offer e).phase = .respond := rfl
@[simp] theorem State.offer_pollIdx (e : Entry) : (s.offer e).pollIdx = s.pollIdx := rfl
@[simp] theorem State.offer_lat (e : Entry) : (s.offer e).lat = { s.lat with value := e.value, phys := e.phys } := rfl
@[simp] theorem State.offer_xreq (e : Entry) : (s.offer e).xreq = s.xreq := rfl
@[simp] theorem State.offer_rsp (e : Entry) : (s.offer e).rsp = some e := rfl
@[simp] theorem State.offer_trace (e : Entry) : (s.offer e).trace = s.trace := rfl

@[simp] theorem State.handOver_cfg (e : Entry) : (s.handOver e).cfg = s.cfg := rfl
@[simp] theorem State.handOver_resetPin (e : Entry) : (s.handOver e).resetPin = s.resetPin := rfl
@[simp] theorem State.handOver_addrSel (e : Entry) : (s.handOver e).addrSel = s.addrSel := rfl
@[simp] theorem State.handOver_cmdIn (e : Entry) : (s.handOver e).cmdIn = s.cmdIn := rfl
@[simp] theorem State.handOver_xrspIn (e : Entry) : (s.handOver e).xrspIn = s.xrspIn := rfl
@[simp] theorem State.handOver_rspReady (e : Entry) : (s.handOver e).rspReady = s.rspReady - 1 := rfl
@[simp] theorem State.handOver_addr7 (e : Entry) : (s.handOver e).addr7 = s.addr7 := rfl
@[simp] theorem State.handOver_stat (e : Entry) : (s.handOver e).stat = s.stat := rfl
@[simp] theorem State.handOver_phase (e : Entry) : (s.handOver e).phase = s.phase := rfl
@[simp] theorem State.handOver_pollIdx (e : Entry) : (s.handOver e).pollIdx = s.pollIdx := rfl
@[simp] theorem State.handOver_lat (e : Entry) : (s.handOver e).lat = s.lat := rfl
@[simp] theorem State.handOver_xreq (e : Entry) : (s.handOver e).xreq = s.xreq := rfl
@[simp] theorem State.handOver_rsp (e : Entry) : (s.handOver e).rsp = none := rfl
@[simp] theorem State.handOver_trace (e : Entry) : (s.handOver e).trace = s.trace ++ [.entry e] := rfl

@[simp] theorem State.goIdle_cfg : (s.goIdle).cfg = s.cfg := rfl
@[simp] theorem State.goIdle_resetPin : (s.goIdle).resetPin = s.resetPin := rfl
@[simp] theorem State.goIdle_addrSel : (s.goIdle).addrSel = s.addrSel := rfl
@[simp] theorem State.goIdle_cmdIn : (s.goIdle).cmdIn = s.cmdIn := rfl
@[simp] theorem State.goIdle_xrspIn : (s.goIdle).xrspIn = s.xrspIn := rfl
@[simp] theorem State.goIdle_rspReady : (s.goIdle).rspReady = s.rspReady := rfl
@[simp] theorem State.goIdle_addr7 : (s.goIdle).addr7 = s.addr7 := rfl
@[simp] theorem State.goIdle_stat : (s.goIdle).stat = s.stat := rfl
@[simp] theorem State.goIdle_phase : (s.goIdle).phase = .idle := rfl
@[simp] theorem State.goIdle_pollIdx : (s.goIdle).pollIdx = s.pollIdx := rfl
@[simp] theorem State.goIdle_lat : (s.goIdle).lat = s.lat := rfl
@[simp] theorem State.goIdle_xreq : (s.goIdle).xreq = s.xreq := rfl
@[simp] theorem State.goIdle_rsp : (s.goIdle).rsp = s.rsp := rfl
@[simp] theorem State.goIdle_trace : (s.goIdle).trace = s.trace := rfl

@[simp] theorem State.setPoll_cfg (p : BitVec 6) : (s.setPoll p).cfg = s.cfg := rfl
@[simp] theorem State.setPoll_resetPin (p : BitVec 6) : (s.setPoll p).resetPin = s.resetPin := rfl
@[simp] theorem State.setPoll_addrSel (p : BitVec 6) : (s.setPoll p).addrSel = s.addrSel := rfl
@[simp] theorem State.setPoll_cmdIn (p : BitVec 6) : (s.setPoll p).cmdIn = s.cmdIn := rfl
@[simp] theorem State.setPoll_xrspIn (p : BitVec 6) : (s.setPoll p).xrspIn = s.xrspIn := rfl
@[simp] theorem State.setPoll_rspReady (p : BitVec 6) : (s.setPoll p).rspReady = s.rspReady := rfl
@[simp] theorem State.setPoll_addr7 (p : BitVec 6) : (s.setPoll p).addr7 = s.addr7 := rfl
@[simp] theorem State.setPoll_stat (p : BitVec 6) : (s.setPoll p).stat = s.stat := rfl
@[simp] theorem State.setPoll_phase (p : BitVec 6) : (s.setPoll p).phase = s.phase := rfl
@[simp] theorem State.setPoll_pollIdx (p : BitVec 6) : (s.setPoll p).pollIdx = p := rfl
@[simp] theorem State.setPoll_lat (p : BitVec 6) : (s.setPoll p).lat = s.lat := rfl
@[simp] theorem State.setPoll_xreq (p : BitVec 6) : (s.setPoll p).xreq = s.xreq := rfl
@[simp] theorem State.setPoll_rsp (p : BitVec 6) : (s.setPoll p).rsp = s.rsp := rfl
@[simp] theorem State.setPoll_trace (p : BitVec 6) : (s.setPoll p).trace = s.trace := rfl

/-- Reading `STAT` after a write of it: the written entry at its index, every other entry as it was. -/
theorem State.statAt_putStat (m n : Index) (e : StatEntry) :
    (s.putStat n e).statAt m = if m = n then e else s.statAt m := by
  unfold State.statAt State.putStat
  simp only [Vector.get_eq_getElem, Vector.getElem_set, Fin.ext_iff, eq_comm]

/-- `STAT[n]` depends on the statistics RAM alone. -/
theorem State.statAt_congr {s t : State} (h : t.stat = s.stat) (n : Index) : t.statAt n = s.statAt n := by
  unfold State.statAt; rw [h]

end Sys2Proof.Machine
end

