-- ==== Sys2Proof/Laws/Sequencer.lean ====
section
/-! SUPPORT. What one event of the block can do (`advance`) and what running it to its next wait does (`settle`), said once:
the ways an event happens, that it uses up exactly one input, what it leaves alone, and how `settle` follows the events. -/

namespace Sys2Proof.Machine

open Sys2Proof

/-- The three ways an event happens. -/
theorem advance_cases {s t : State} (h : advance s = some t) :
    (∃ a rest, s.phase = .xfer1 ∧ s.xrspIn = a :: rest ∧ t = answered1 a (s.receive a rest)) ∨
    (∃ a rest, s.phase = .xfer2 ∧ s.xrspIn = a :: rest ∧ t = answered2 a (s.receive a rest)) ∨
    (∃ e k, s.phase = .respond ∧ s.rsp = some e ∧ s.rspReady = k + 1 ∧ t = taken (s.handOver e)) := by
  unfold advance at h
  split at h
  · cases h
  · next hp =>
    split at h
    · cases h
    · next a rest hx => exact .inl ⟨a, rest, hp, hx, by simpa using h.symm⟩
  · next hp =>
    split at h
    · cases h
    · next a rest hx => exact .inr (.inl ⟨a, rest, hp, hx, by simpa using h.symm⟩)
  · next hp =>
    split at h
    · next e k he hk => exact .inr (.inr ⟨e, k, hp, he, hk, by simpa using h.symm⟩)
    · cases h
    · cases h

/-- What the operations of a command leave alone whatever they do: the configuration, the pins, the command channel, `ADDR7`
and the word in `CMD`; and what stands in the record of port events stays there. -/
structure State.Keeps (s t : State) : Prop where
  cfg : t.cfg = s.cfg
  resetPin : t.resetPin = s.resetPin
  addrSel : t.addrSel = s.addrSel
  cmdIn : t.cmdIn = s.cmdIn
  addr7 : t.addr7 = s.addr7
  cmd : t.lat.cmd = s.lat.cmd
  trace : s.trace <+: t.trace

theorem State.Keeps.rfl (s : State) : s.Keeps s := ⟨by rfl, by rfl, by rfl, by rfl, by rfl, by rfl, List.prefix_rfl⟩

theorem State.Keeps.trans {s t u : State} (h : s.Keeps t) (k : t.Keeps u) : s.Keeps u :=
  ⟨k.cfg.trans h.cfg, k.resetPin.trans h.resetPin, k.addrSel.trans h.addrSel, k.cmdIn.trans h.cmdIn,
   k.addr7.trans h.addr7, k.cmd.trans h.cmd, h.trace.trans k.trace⟩

theorem State.keeps_offer (s : State) (e : Entry) : s.Keeps (s.offer e) :=
  ⟨by rfl, by rfl, by rfl, by rfl, by rfl, by rfl, List.prefix_rfl⟩

theorem State.keeps_issue (s : State) (ph : Phase) (q : Xreq) : s.Keeps (s.issue ph q) :=
  ⟨by rfl, by rfl, by rfl, by rfl, by rfl, by rfl, List.prefix_append _ _⟩

theorem State.keeps_receive (s : State) (a : Xrsp) (rest : List Xrsp) : s.Keeps (s.receive a rest) :=
  ⟨by rfl, by rfl, by rfl, by rfl, by rfl, by rfl, List.prefix_append _ _⟩

theorem State.keeps_handOver (s : State) (e : Entry) : s.Keeps (s.handOver e) :=
  ⟨by rfl, by rfl, by rfl, by rfl, by rfl, by rfl, List.prefix_append _ _⟩

theorem State.keeps_latchLo (s : State) (v : Half) : s.Keeps (s.latchLo v) :=
  ⟨by rfl, by rfl, by rfl, by rfl, by rfl, by rfl, List.prefix_rfl⟩

theorem State.keeps_latchHi (s : State) (v : Half) : s.Keeps (s.latchHi v) :=
  ⟨by rfl, by rfl, by rfl, by rfl, by rfl, by rfl, List.prefix_rfl⟩

theorem State.keeps_putStat (s : State) (n : Index) (e : StatEntry) : s.Keeps (s.putStat n e) :=
  ⟨by rfl, by rfl, by rfl, by rfl, by rfl, by rfl, List.prefix_rfl⟩

theorem State.keeps_setPoll (s : State) (p : BitVec 6) : s.Keeps (s.setPoll p) :=
  ⟨by rfl, by rfl, by rfl, by rfl, by rfl, by rfl, List.prefix_rfl⟩

theorem State.keeps_goIdle (s : State) : s.Keeps s.goIdle :=
  ⟨by rfl, by rfl, by rfl, by rfl, by rfl, by rfl, List.prefix_rfl⟩

/-- What happens when an answer has arrived in XFER1, whatever the command in `CMD` is: an entry that is not a decode's is
offered, or a decode of the index in progress goes on, or (in a state that no run reaches) nothing. -/
theorem answered1_cases (a : Xrsp) (s : State) :
    (∃ r, decodeWord s.lat.cmd = .instr (.rdw r) ∧ answered1 a s = rdwAnswered r a s) ∨
    (∃ r v, decodeWord s.lat.cmd = .instr (.wrw r v) ∧ answered1 a s = wrwAnswered r a s) ∨
    (∃ n k, decodeWord s.lat.cmd = .instr (.rdreg n) ∧ indexOfByte n = some k ∧ answered1 a s = rdregAnswered k a s) ∨
    (∃ k, decodeIndex s = some k ∧ answered1 a s = decodeAnswered1 k (lastExpected s) a s) ∨
    (firstRequest s = none ∧ answered1 a s = s) := by
  unfold answered1 lastExpected decodeIndex firstRequest
  split
  · next r h => exact .inl ⟨r, h, rfl⟩
  · next r v h => exact .inr (.inl ⟨r, v, h, rfl⟩)
  · next n h =>
    split
    · next k hk => exact .inr (.inr (.inl ⟨n, k, h, hk, rfl⟩))
    · next hk => exact .inr (.inr (.inr (.inr ⟨by simp [hk], rfl⟩)))
  · next n h =>
    split
    · next k hk => exact .inr (.inr (.inr (.inl ⟨k, hk, rfl⟩)))
    · next hk => exact .inr (.inr (.inr (.inr ⟨by simp [decodeIndex, h, hk], rfl⟩)))
  · next h =>
    split
    · next k hk => exact .inr (.inr (.inr (.inl ⟨k, hk, rfl⟩)))
    · next hk => exact .inr (.inr (.inr (.inr ⟨by simp [decodeIndex, h, hk], rfl⟩)))
  · exact .inr (.inr (.inr (.inr ⟨rfl, rfl⟩)))

/-- What happens when an answer has arrived in XFER2: the decode of the index in progress ends, or (in a state that no run
reaches) nothing happens. -/
theorem answered2_cases (a : Xrsp) (s : State) :
    (∃ k, decodeIndex s = some k ∧ answered2 a s = decodeAnswered2 k (lastExpected s) a s) ∨
    (decodeIndex s = none ∧ answered2 a s = s) := by
  unfold answered2 lastExpected decodeIndex
  split
  · exact .inr ⟨rfl, rfl⟩
  · exact .inr ⟨rfl, rfl⟩
  · exact .inr ⟨rfl, rfl⟩
  · split
    · next k hk => exact .inl ⟨k, hk, rfl⟩
    · next hk => exact .inr ⟨hk, rfl⟩
  · split
    · next k hk => exact .inl ⟨k, hk, rfl⟩
    · next hk => exact .inr ⟨hk, rfl⟩
  · exact .inr ⟨rfl, rfl⟩

/-- What happens when an entry has been taken: a poll that has not reached index 43 goes on, and else the block is IDLE. -/
theorem taken_cases (s : State) :
    (decodeWord s.lat.cmd = .instr .pollall ∧ ∃ k, indexOfPoll s.pollIdx = some k ∧ ∃ h : k.val + 1 < nreg,
      taken s = decodeStart ⟨k.val + 1, h⟩ (s.setPoll (idxBits ⟨k.val + 1, h⟩))) ∨
    (lastExpected s = true ∧ taken s = s.goIdle) := by
  unfold taken lastExpected
  split
  · exact .inr ⟨rfl, rfl⟩
  · exact .inr ⟨rfl, rfl⟩
  · exact .inr ⟨rfl, rfl⟩
  · exact .inr ⟨rfl, rfl⟩
  · next hd =>
    split
    · next k hk =>
      unfold pollTaken
      split
      · next h => exact .inl ⟨hd, k, hk, h, rfl⟩
      · next h =>
        refine .inr ⟨?_, rfl⟩
        have hlt : k.val < 44 := k.isLt
        have hge : ¬ k.val + 1 < 44 := h
        simp only [pollLast, beq_iff_eq]
        omega
    · exact .inr ⟨rfl, rfl⟩
  · exact .inr ⟨rfl, rfl⟩

/-- A finished decode writes its own statistics entry and offers its entry. -/
theorem decodeFinish_keeps (n : Index) (last : Bool) (value : Word) (s : State) : s.Keeps (decodeFinish n last value s) :=
  (State.keeps_putStat s n _).trans (State.keeps_offer _ _)

theorem decodeAnswered1_keeps (n : Index) (last : Bool) (a : Xrsp) (s : State) :
    s.Keeps (decodeAnswered1 n last a s) := by
  unfold decodeAnswered1
  split
  · exact State.keeps_offer s _
  · split
    · exact (State.keeps_latchLo s _).trans (State.keeps_issue _ _ _)
    · exact (State.keeps_latchLo s _).trans (decodeFinish_keeps _ _ _ _)

theorem decodeAnswered2_keeps (n : Index) (last : Bool) (a : Xrsp) (s : State) :
    s.Keeps (decodeAnswered2 n last a s) := by
  unfold decodeAnswered2
  split
  · exact State.keeps_offer s _
  · exact (State.keeps_latchHi s _).trans (decodeFinish_keeps _ _ _ _)

theorem rdwAnswered_keeps (r : Byte) (a : Xrsp) (s : State) : s.Keeps (rdwAnswered r a s) := by
  unfold rdwAnswered
  split
  · exact (State.keeps_latchLo s _).trans (State.keeps_offer _ _)
  · exact State.keeps_offer s _

theorem rdregAnswered_keeps (n : Index) (a : Xrsp) (s : State) : s.Keeps (rdregAnswered n a s) := by
  unfold rdregAnswered
  split
  · exact (State.keeps_latchLo s _).trans (State.keeps_offer _ _)
  · exact State.keeps_offer s _

theorem wrwAnswered_keeps (r : Byte) (a : Xrsp) (s : State) : s.Keeps (wrwAnswered r a s) := by
  unfold wrwAnswered
  split <;> exact State.keeps_offer s _

theorem answered1_keeps (a : Xrsp) (s : State) : s.Keeps (answered1 a s) := by
  obtain ⟨r, _, h⟩ | ⟨r, v, _, h⟩ | ⟨n, k, _, _, h⟩ | ⟨k, _, h⟩ | ⟨_, h⟩ := answered1_cases a s <;> rw [h]
  · exact rdwAnswered_keeps r a s
  · exact wrwAnswered_keeps r a s
  · exact rdregAnswered_keeps k a s
  · exact decodeAnswered1_keeps k _ a s
  · exact State.Keeps.rfl s

theorem answered2_keeps (a : Xrsp) (s : State) : s.Keeps (answered2 a s) := by
  obtain ⟨k, _, h⟩ | ⟨_, h⟩ := answered2_cases a s <;> rw [h]
  · exact decodeAnswered2_keeps k _ a s
  · exact State.Keeps.rfl s

theorem taken_keeps (s : State) : s.Keeps (taken s) := by
  obtain ⟨_, k, _, _, h⟩ | ⟨_, h⟩ := taken_cases s <;> rw [h]
  · exact (State.keeps_setPoll s _).trans (State.keeps_issue _ _ _)
  · exact State.keeps_goIdle s

/-- An event leaves alone what `State.Keeps` names. -/
theorem advance_keeps {s t : State} (h : advance s = some t) : s.Keeps t := by
  obtain ⟨a, rest, _, _, rfl⟩ | ⟨a, rest, _, _, rfl⟩ | ⟨e, k, _, _, _, rfl⟩ := advance_cases h
  · exact (State.keeps_receive s a rest).trans (answered1_keeps a _)
  · exact (State.keeps_receive s a rest).trans (answered2_keeps a _)
  · exact (State.keeps_handOver s e).trans (taken_keeps _)

/-- The inputs are used up by the events alone, not by what an event leads to. -/
theorem decodeFinish_inputs (n : Index) (last : Bool) (value : Word) (s : State) :
    (decodeFinish n last value s).inputs = s.inputs := rfl

theorem answered1_inputs (a : Xrsp) (s : State) : (answered1 a s).inputs = s.inputs := by
  obtain ⟨r, _, h⟩ | ⟨r, v, _, h⟩ | ⟨n, k, _, _, h⟩ | ⟨k, _, h⟩ | ⟨_, h⟩ := answered1_cases a s <;> rw [h]
  · unfold rdwAnswered; split <;> rfl
  · unfold wrwAnswered; split <;> rfl
  · unfold rdregAnswered; split <;> rfl
  · unfold decodeAnswered1; split
    · rfl
    · split <;> rfl

theorem answered2_inputs (a : Xrsp) (s : State) : (answered2 a s).inputs = s.inputs := by
  obtain ⟨k, _, h⟩ | ⟨_, h⟩ := answered2_cases a s <;> rw [h]
  unfold decodeAnswered2; split <;> rfl

theorem taken_inputs (s : State) : (taken s).inputs = s.inputs := by
  obtain ⟨_, k, _, _, h⟩ | ⟨_, h⟩ := taken_cases s <;> rw [h] <;> rfl

/-- Every event uses up exactly one input. -/
theorem advance_inputs {s t : State} (h : advance s = some t) : t.inputs + 1 = s.inputs := by
  obtain ⟨a, rest, _, hx, rfl⟩ | ⟨a, rest, _, hx, rfl⟩ | ⟨e, k, _, _, hk, rfl⟩ := advance_cases h
  · rw [answered1_inputs]; simp [State.inputs, hx]; omega
  · rw [answered2_inputs]; simp [State.inputs, hx]; omega
  · rw [taken_inputs]; simp [State.inputs, hk]; omega

theorem settle_of_blocked {s : State} (h : advance s = none) : settle s = s := by
  unfold settle
  cases s.inputs with
  | zero => rfl
  | succ k => simp [settleN, h]

/-- `settle` follows the events one by one. -/
theorem settle_of_advance {s t : State} (h : advance s = some t) : settle s = settle t := by
  unfold settle
  rw [← advance_inputs h]
  simp [settleN, h]

/-- An induction over the events of a run: what holds at the start and is kept by every event holds when the block waits. -/
theorem settle_induction {P : State → Prop} (hP : ∀ s t, P s → advance s = some t → P t) {s : State} (h : P s) :
    P (settle s) := by
  generalize hn : s.inputs = n
  induction n generalizing s with
  | zero => unfold settle; rw [hn]; exact h
  | succ n ih =>
    cases ha : advance s with
    | none => rw [settle_of_blocked ha]; exact h
    | some t =>
      rw [settle_of_advance ha]
      have := advance_inputs ha
      exact ih (hP s t h ha) (by omega)

/-- After `settle` the block is IDLE or waits for an input that has not come. -/
theorem advance_settle (s : State) : advance (settle s) = none := by
  generalize hn : s.inputs = n
  induction n generalizing s with
  | zero =>
    cases ha : advance s with
    | none => rw [settle_of_blocked ha]; exact ha
    | some t => have := advance_inputs ha; omega
  | succ n ih =>
    cases ha : advance s with
    | none => rw [settle_of_blocked ha]; exact ha
    | some t =>
      rw [settle_of_advance ha]
      have := advance_inputs ha
      exact ih t (by omega)

theorem settle_keeps (s : State) : s.Keeps (settle s) :=
  settle_induction (P := s.Keeps) (fun _ _ h ha => h.trans (advance_keeps ha)) (State.Keeps.rfl s)

theorem settle_idle {s : State} (h : s.phase = .idle) : settle s = s :=
  settle_of_blocked (by simp [advance, h])

theorem settle_xfer1 {s : State} {a : Xrsp} {rest : List Xrsp} (h : s.phase = .xfer1) (hx : s.xrspIn = a :: rest) :
    settle s = settle (answered1 a (s.receive a rest)) :=
  settle_of_advance (by simp [advance, h, hx])

theorem settle_xfer2 {s : State} {a : Xrsp} {rest : List Xrsp} (h : s.phase = .xfer2) (hx : s.xrspIn = a :: rest) :
    settle s = settle (answered2 a (s.receive a rest)) :=
  settle_of_advance (by simp [advance, h, hx])

theorem settle_respond {s : State} {e : Entry} {k : Nat} (h : s.phase = .respond) (he : s.rsp = some e)
    (hk : s.rspReady = k + 1) : settle s = settle (taken (s.handOver e)) :=
  settle_of_advance (by simp [advance, h, he, hk])

/-- A block that waits for an answer stays as it is until one comes (70_reset_and_hazards.md R144). -/
theorem settle_silent {s : State} (h : s.phase = .xfer1 ∨ s.phase = .xfer2) (hx : s.xrspIn = []) : settle s = s :=
  settle_of_blocked (by rcases h with h | h <;> simp [advance, h, hx])

/-- A block whose entry is not taken stays as it is (70_reset_and_hazards.md R145). -/
theorem settle_stalled {s : State} (h : s.phase = .respond) (hk : s.rspReady = 0) : settle s = s :=
  settle_of_blocked (by cases he : s.rsp <;> simp [advance, h, he, hk])

/-- What `runBlock` can answer. -/
theorem runBlock_cases (s : State) :
    (s.cfg.admitted = true ∧ runBlock s = .next (settle s)) ∨
    (s.cfg.admitted = false ∧ runBlock s = .refused .catalogNotAdmitted) := by
  unfold runBlock
  cases h : s.cfg.admitted <;> simp

theorem runBlock_next {s : State} (h : s.cfg.admitted = true) : runBlock s = .next (settle s) := by
  simp [runBlock, h]

theorem runBlock_eq_next {s t : State} (h : runBlock s = .next t) : s.cfg.admitted = true ∧ t = settle s := by
  obtain ⟨hc, hr⟩ | ⟨_, hr⟩ := runBlock_cases s <;> rw [hr] at h <;> simp_all

end Sys2Proof.Machine
end

