-- ==== Sys2Proof/Laws/Step.lean ====
section
/-! SUPPORT. What one step can do, said once; what it does to the statistics; and how the port events are read. -/

namespace Sys2Proof.Machine

open Sys2Proof

/-- The five ways a step has a next state: in reset; waiting for a command; running a command; refusing a word; running on. -/
theorem step_cases {s t : State} (h : step s = .next t) :
    (s.resetPin = true ∧ t = applyReset s) ∨
    (s.resetPin = false ∧ s.controlOk = true ∧ s.phase = .idle ∧ s.cmdIn = [] ∧ t = s) ∨
    (s.resetPin = false ∧ s.controlOk = true ∧ s.phase = .idle ∧ ∃ w ws i, s.cmdIn = w :: ws ∧
      decodeWord w = .instr i ∧ exec i (s.accept w ws) = .next t) ∨
    (s.resetPin = false ∧ s.controlOk = true ∧ s.phase = .idle ∧ ∃ w ws why, s.cmdIn = w :: ws ∧
      decodeWord w = .illegal why ∧ execIllegal w (s.accept w ws) = .next t) ∨
    (s.resetPin = false ∧ s.controlOk = true ∧ s.phase ≠ .idle ∧ s.cfg.admitted = true ∧ t = settle s) := by
  unfold step at h
  split at h
  · next hr => exact .inl ⟨hr, by simpa using h.symm⟩
  · next hr =>
    have hr' : s.resetPin = false := by simpa using hr
    split at h
    · next hc =>
      split at h
      · next hp =>
        unfold takeCommand at h
        split at h
        · next hx => exact .inr (.inl ⟨hr', hc, hp, hx, by simpa using h.symm⟩)
        · next w ws hx =>
          unfold runWord at h
          split at h
          · next i hi => exact .inr (.inr (.inl ⟨hr', hc, hp, w, ws, i, hx, hi, h⟩))
          · next why hi => exact .inr (.inr (.inr (.inl ⟨hr', hc, hp, w, ws, why, hx, hi, h⟩)))
      all_goals
        next hp =>
          obtain ⟨ha, ht⟩ := runBlock_eq_next h
          exact .inr (.inr (.inr (.inr ⟨hr', hc, by simp [hp], ha, ht⟩)))
    · cases h

/-- Every command and every refusal of a word runs the block from the state in which it has been started. -/
theorem exec_settles {i : Instr} {s t : State} (h : exec i s = .next t) :
    s.cfg.admitted = true ∧ ∃ u, t = settle u ∧ s.Keeps { u with lat := { u.lat with cmd := s.lat.cmd } } ∧
      u.stat = s.stat ∧ u.lat.cmd = encodeWord i := by
  cases i with
  | rdw r =>
    obtain ⟨hc, rfl⟩ := runBlock_eq_next h
    exact ⟨hc, _, rfl, ⟨rfl, rfl, rfl, rfl, rfl, rfl, List.prefix_append _ _⟩, rfl, rfl⟩
  | wrw r v =>
    obtain ⟨hc, rfl⟩ := runBlock_eq_next h
    exact ⟨hc, _, rfl, ⟨rfl, rfl, rfl, rfl, rfl, rfl, List.prefix_append _ _⟩, rfl, rfl⟩
  | rdreg n =>
    obtain ⟨hc, rfl⟩ := runBlock_eq_next h
    unfold rdregStart at *
    cases hn : indexOfByte n with
    | none => simp only [hn] at hc ⊢; exact ⟨hc, _, rfl, ⟨rfl, rfl, rfl, rfl, rfl, rfl, List.prefix_rfl⟩, rfl, rfl⟩
    | some k =>
      simp only [hn] at hc ⊢
      exact ⟨hc, _, rfl, ⟨rfl, rfl, rfl, rfl, rfl, rfl, List.prefix_append _ _⟩, rfl, rfl⟩
  | decode n =>
    obtain ⟨hc, rfl⟩ := runBlock_eq_next h
    unfold decodeCmdStart at *
    cases hn : indexOfByte n with
    | none => simp only [hn] at hc ⊢; exact ⟨hc, _, rfl, ⟨rfl, rfl, rfl, rfl, rfl, rfl, List.prefix_rfl⟩, rfl, rfl⟩
    | some k =>
      simp only [hn] at hc ⊢
      exact ⟨hc, _, rfl, ⟨rfl, rfl, rfl, rfl, rfl, rfl, List.prefix_append _ _⟩, rfl, rfl⟩
  | pollall =>
    obtain ⟨hc, rfl⟩ := runBlock_eq_next h
    exact ⟨hc, _, rfl, ⟨rfl, rfl, rfl, rfl, rfl, rfl, List.prefix_append _ _⟩, rfl, rfl⟩

theorem execIllegal_settles {w : Word} {s t : State} (h : execIllegal w s = .next t) :
    s.cfg.admitted = true ∧ t = settle ((s.latchWord w).refuseCommand .illegalCmd 0#8) := runBlock_eq_next h

/-- Reading `STAT` after an update of it. -/
theorem statUpdate_statAt (s : State) (m n : Index) (v : Word) :
    (s.statUpdate n v).statAt m = if m = n then (s.statAt n).update v else s.statAt m :=
  State.statAt_putStat _ _ _ _

theorem answered1_stat (a : Xrsp) (s : State) : (answered1 a s).stat = s.stat ∨
    ∃ n v, decodeIndex s = some n ∧ (answered1 a s).stat = (s.statUpdate n v).stat := by
  obtain ⟨r, _, h⟩ | ⟨r, v, _, h⟩ | ⟨n, k, _, _, h⟩ | ⟨k, hk, h⟩ | ⟨_, h⟩ := answered1_cases a s <;> rw [h]
  · left; unfold rdwAnswered; split <;> rfl
  · left; unfold wrwAnswered; split <;> rfl
  · left; unfold rdregAnswered; split <;> rfl
  · unfold decodeAnswered1
    split
    · left; rfl
    · split
      · left; rfl
      · right; exact ⟨k, _, hk, rfl⟩
  · left; rfl

theorem answered2_stat (a : Xrsp) (s : State) : (answered2 a s).stat = s.stat ∨
    ∃ n v, decodeIndex s = some n ∧ (answered2 a s).stat = (s.statUpdate n v).stat := by
  obtain ⟨k, hk, h⟩ | ⟨_, h⟩ := answered2_cases a s <;> rw [h]
  · unfold decodeAnswered2
    split
    · left; rfl
    · right; exact ⟨k, _, hk, rfl⟩
  · left; rfl

theorem taken_stat (s : State) : (taken s).stat = s.stat := by
  obtain ⟨_, k, _, _, h⟩ | ⟨_, h⟩ := taken_cases s <;> rw [h] <;> rfl

/-- An event writes no statistics, or updates the entry of the decode in progress (43_minmax_poll.md R105). -/
theorem advance_stat {s t : State} (h : advance s = some t) : t.stat = s.stat ∨
    ∃ n v, decodeIndex s = some n ∧ t.stat = (s.statUpdate n v).stat := by
  obtain ⟨a, rest, _, _, rfl⟩ | ⟨a, rest, _, _, rfl⟩ | ⟨e, k, _, _, _, rfl⟩ := advance_cases h
  · exact answered1_stat a _
  · exact answered2_stat a _
  · left; rw [taken_stat]; rfl

/-- A relation between statistics entries that every update respects is respected by a run. -/
theorem settle_stat {R : StatEntry → StatEntry → Prop} (hrefl : ∀ e, R e e) (htrans : ∀ a b c, R a b → R b c → R a c)
    (hu : ∀ e v, R e (e.update v)) (s : State) (n : Index) : R (s.statAt n) ((settle s).statAt n) := by
  refine settle_induction (P := fun t => R (s.statAt n) (t.statAt n)) ?_ (hrefl _)
  intro t u ht ha
  refine htrans _ _ _ ht ?_
  obtain h | ⟨m, v, _, h⟩ := advance_stat ha
  · rw [State.statAt_congr h]; exact hrefl _
  · rw [State.statAt_congr h, statUpdate_statAt]
    split
    · next e => subst e; exact hu _ _
    · exact hrefl _

/-- An update keeps a statistics entry in order (10_state.md R14). -/
theorem update_ok {e : StatEntry} (v : Word) (h : e.ok) : (e.update v).ok :=
  ⟨(update_monotone e v).1.trans h.1, .inr ((update_bounds e v).1.trans (update_bounds e v).2)⟩

/-- Reading events one list after the other. -/
theorem PortOrder.read_append (o : PortOrder) (xs ys : List Event) :
    o.read (xs ++ ys) = (o.read xs).bind fun o' => o'.read ys := by
  induction xs generalizing o with
  | nil => rfl
  | cons x xs ih =>
    simp only [List.cons_append, PortOrder.read]
    cases o.next x with
    | none => rfl
    | some o' => exact ih o'

end Sys2Proof.Machine
end

