-- ==== Sys2Proof/Laws/Events.lean ====
section
/-! SUPPORT. What one event of the block leads to, said once for all commands: an entry is offered, a request is issued, the
block goes IDLE, or (in a state that no run reaches) nothing. -/

namespace Sys2Proof.Machine

open Sys2Proof

/-- `t` is `s` with the entry `e` offered; the statistics may have been written. -/
structure State.Offers (s t : State) (e : Entry) : Prop where
  phase : t.phase = .respond
  rsp : t.rsp = some e
  xreq : t.xreq = s.xreq
  trace : t.trace = s.trace
  xrspIn : t.xrspIn = s.xrspIn
  rspReady : t.rspReady = s.rspReady
  pollIdx : t.pollIdx = s.pollIdx
  cfg : t.cfg = s.cfg
  addr7 : t.addr7 = s.addr7
  cmd : t.lat.cmd = s.lat.cmd

/-- `t` is `s` with the request `q` issued in phase `ph`; `POLL_IDX` may have been written. -/
structure State.Issues (s t : State) (ph : Phase) (q : Xreq) : Prop where
  phase : t.phase = ph
  xreq : t.xreq = some q
  rsp : t.rsp = s.rsp
  trace : t.trace = s.trace ++ [.request q]
  xrspIn : t.xrspIn = s.xrspIn
  rspReady : t.rspReady = s.rspReady
  stat : t.stat = s.stat
  cfg : t.cfg = s.cfg
  addr7 : t.addr7 = s.addr7
  cmd : t.lat.cmd = s.lat.cmd

/-- How the statistics are after an entry has been offered: as they were, where the entry reports no decoded value; with the
one entry of the decoded index updated with the value that the entry reports (42_decode.md R97, 43_minmax_poll.md R105). -/
def StatAfter (s t : State) (e : Entry) : Prop :=
  (t.stat = s.stat ∧ (e.kind = .none ∨ e.kind = .raw)) ∨
  (∃ n v, decodeIndex s = some n ∧ t.stat = (s.statUpdate n v).stat ∧ ∃ last,
    e = decodedEntry (s.cfg.lut n) n last v ((s.statAt n).update v))

/-- The decode in progress, the last entry and the requests depend on `CMD`, `POLL_IDX`, `ADDR7` and the catalog alone. -/
theorem decodeIndex_congr {s t : State} (hc : t.lat.cmd = s.lat.cmd) (hp : t.pollIdx = s.pollIdx) :
    decodeIndex t = decodeIndex s := by
  unfold decodeIndex; rw [hc, hp]

theorem lastExpected_congr {s t : State} (hc : t.lat.cmd = s.lat.cmd) (hp : t.pollIdx = s.pollIdx) :
    lastExpected t = lastExpected s := by
  unfold lastExpected; rw [hc, hp]

theorem firstRequest_congr {s t : State} (hc : t.lat.cmd = s.lat.cmd) (hp : t.pollIdx = s.pollIdx)
    (ha : t.addr7 = s.addr7) : firstRequest t = firstRequest s := by
  unfold firstRequest; rw [hc, ha, decodeIndex_congr hc hp]

theorem secondRequest_congr {s t : State} (hc : t.lat.cmd = s.lat.cmd) (hp : t.pollIdx = s.pollIdx)
    (ha : t.addr7 = s.addr7) (hg : t.cfg = s.cfg) : secondRequest t = secondRequest s := by
  unfold secondRequest; rw [ha, hg, decodeIndex_congr hc hp]

theorem State.offer_offers (s : State) (e : Entry) : s.Offers (s.offer e) e :=
  ⟨rfl, rfl, rfl, rfl, rfl, rfl, rfl, rfl, rfl, rfl⟩

theorem State.latchLo_offers (s : State) (v : Half) (e : Entry) : s.Offers ((s.latchLo v).offer e) e :=
  ⟨rfl, rfl, rfl, rfl, rfl, rfl, rfl, rfl, rfl, rfl⟩

/-- The end of a decode offers its entry. -/
theorem decodeFinish_offers (n : Index) (last : Bool) (v : Word) (s : State) :
    s.Offers (decodeFinish n last v s) (decodedEntry (s.cfg.lut n) n last v ((s.statAt n).update v)) :=
  ⟨rfl, rfl, rfl, rfl, rfl, rfl, rfl, rfl, rfl, rfl⟩

/-- What follows the answer of a first transaction. -/
theorem answered1_effect (a : Xrsp) (s : State) :
    (∃ e, s.Offers (answered1 a s) e ∧ e.last = lastExpected s ∧ StatAfter s (answered1 a s) e) ∨
    (∃ q, secondRequest s = some q ∧ s.Issues (answered1 a s) .xfer2 q ∧ (answered1 a s).pollIdx = s.pollIdx) ∨
    (firstRequest s = none ∧ answered1 a s = s) := by
  obtain ⟨r, hd, h⟩ | ⟨r, v, hd, h⟩ | ⟨n, k, hd, _, h⟩ | ⟨k, hk, h⟩ | ⟨hf, h⟩ := answered1_cases a s <;> rw [h]
  · have hl : lastExpected s = true := by simp [lastExpected, hd]
    rw [hl]; left; unfold rdwAnswered; split
    · exact ⟨_, State.latchLo_offers _ _ _, rfl, .inl ⟨rfl, .inr rfl⟩⟩
    · exact ⟨_, State.offer_offers _ _, rfl, .inl ⟨rfl, .inl rfl⟩⟩
  · have hl : lastExpected s = true := by simp [lastExpected, hd]
    rw [hl]; left; unfold wrwAnswered; split
    · exact ⟨_, State.offer_offers _ _, rfl, .inl ⟨rfl, .inl rfl⟩⟩
    · exact ⟨_, State.offer_offers _ _, rfl, .inl ⟨rfl, .inl rfl⟩⟩
  · have hl : lastExpected s = true := by simp [lastExpected, hd]
    rw [hl]; left; unfold rdregAnswered; split
    · exact ⟨_, State.latchLo_offers _ _ _, rfl, .inl ⟨rfl, .inr rfl⟩⟩
    · exact ⟨_, State.offer_offers _ _, rfl, .inl ⟨rfl, .inl rfl⟩⟩
  · unfold decodeAnswered1
    split
    · exact .inl ⟨_, State.offer_offers _ _, rfl, .inl ⟨rfl, .inl rfl⟩⟩
    · split
      · next hp => exact .inr (.inl ⟨_, by simp only [secondRequest, hk, hp, if_true]; rfl,
          ⟨rfl, rfl, rfl, rfl, rfl, rfl, rfl, rfl, rfl, rfl⟩, rfl⟩)
      · exact .inl ⟨_, ⟨rfl, rfl, rfl, rfl, rfl, rfl, rfl, rfl, rfl, rfl⟩, rfl, .inr ⟨k, _, hk, rfl, _, rfl⟩⟩
  · exact .inr (.inr ⟨hf, rfl⟩)

/-- What follows the answer of a second transaction. -/
theorem answered2_effect (a : Xrsp) (s : State) :
    (∃ e, s.Offers (answered2 a s) e ∧ e.last = lastExpected s ∧ StatAfter s (answered2 a s) e) ∨
    (secondRequest s = none ∧ answered2 a s = s) := by
  obtain ⟨k, hk, h⟩ | ⟨hk, h⟩ := answered2_cases a s <;> rw [h]
  · unfold decodeAnswered2
    split
    · exact .inl ⟨_, State.offer_offers _ _, rfl, .inl ⟨rfl, .inl rfl⟩⟩
    · exact .inl ⟨_, ⟨rfl, rfl, rfl, rfl, rfl, rfl, rfl, rfl, rfl, rfl⟩, rfl, .inr ⟨k, _, hk, rfl, _, rfl⟩⟩
  · exact .inr ⟨by simp [secondRequest, hk], rfl⟩

/-- What follows the taking of an entry. -/
theorem taken_effect (s : State) :
    (∃ q, firstRequest (taken s) = some q ∧ s.Issues (taken s) .xfer1 q ∧ (taken s).pollIdx.toNat ≤ 43 ∧
      lastExpected s = false) ∨
    (lastExpected s = true ∧ taken s = s.goIdle) := by
  obtain ⟨hd, k, hk, hlt, h⟩ | ⟨hl, h⟩ := taken_cases s
  · left
    have h44 : k.val + 1 < 44 := hlt
    have hi : decodeIndex (taken s) = some ⟨k.val + 1, hlt⟩ := by
      rw [h]; show decodeIndex _ = _
      unfold decodeIndex
      simp only [decodeStart, State.beginRead, State.issue_lat, State.issue_pollIdx, State.setPoll_lat, State.setPoll_pollIdx,
        hd, indexOfPoll_idxBits]
    refine ⟨readRequest s.addr7 (wire (k.val + 1)), ?_, ?_, ?_, ?_⟩
    · have hc : decodeWord (taken s).lat.cmd = .instr .pollall := by rw [h]; exact hd
      have ha : (taken s).addr7 = s.addr7 := by rw [h]; rfl
      unfold firstRequest
      rw [hc, hi, ha]; rfl
    · rw [h]; exact ⟨rfl, rfl, rfl, rfl, rfl, rfl, rfl, rfl, rfl, rfl⟩
    · rw [h]; show (idxBits _).toNat ≤ 43
      rw [idxBits_toNat]
      show k.val + 1 ≤ 43
      omega
    · simp only [lastExpected, hd, hk, pollLast, beq_eq_false_iff_ne]
      omega
  · exact .inr ⟨hl, h⟩

end Sys2Proof.Machine
end

