-- ==== Sys2Proof/Tests/Slice0.lean ====
section
/-! SUPPORT. Tests. Every expected value is the spec's own (95_test_vectors.md and the examples of the rules), but for the
witnesses, which show for each statement with hypotheses a state and operands that meet them. -/

namespace Sys2Proof.Tests

open Sys2Proof Sys2Proof.Machine Sys2Proof.Claims

/-! ### Admission of a configuration (42_decode.md R93): each check refuses a term that breaks it alone -/

theorem test_wf_unknown_with_pair : LutEntry.wf 3 ⟨false, true, false, 0x1000000#25⟩ = false := by decide
theorem test_wf_unknown_with_scale : LutEntry.wf 3 ⟨false, false, false, 0x0800000#25⟩ = false := by decide
theorem test_wf_pair_and_bitfield : LutEntry.wf 3 ⟨true, true, true, 0x1000000#25⟩ = false := by decide
theorem test_wf_pair_at_43 : LutEntry.wf 43 ⟨true, true, false, 0x0400000#25⟩ = false := by decide
theorem test_wf_pair_at_42 : LutEntry.wf 42 ⟨true, true, false, 0x0400000#25⟩ = true := by decide
theorem test_wf_scaled_with_zero : LutEntry.wf 3 ⟨true, false, false, 0#25⟩ = false := by decide
theorem test_wf_bitfield_with_scale : LutEntry.wf 3 ⟨true, false, true, 0x0800000#25⟩ = false := by decide

/-- The test catalog `CAT_T` of 95_test_vectors.md: a bitfield row at 0x01 and the document's two rows. -/
def catT : Catalog :=
  Catalog.ofRows [(0x01, ⟨true, false, true, 0x1000000#25⟩), (0x04, LutEntry.inputVoltage), (0x16, LutEntry.wattSecondsIn)]

/-- `CAT_T` with index 42, the last that can be, paired, and index 43 a bitfield. -/
def catEnd : Catalog :=
  Catalog.ofRows [(0x04, LutEntry.inputVoltage), (0x16, LutEntry.wattSecondsIn), (0x2A, ⟨true, true, false, 0x1000000#25⟩),
    (0x2B, ⟨true, false, true, 0x1000000#25⟩)]

/-- A catalog without the document's row at 0x04. -/
def catBad : Catalog := Catalog.ofRows [(0x16, LutEntry.wattSecondsIn)]

theorem test_admits_the_test_catalog : (Config.mk 0x58#7 catT false).admitted = true := by decide
theorem test_admits_the_default : defaultConfig.admitted = true := by decide
theorem test_refuses_a_catalog_without_document_row : (Config.mk 0x58#7 catBad false).admitted = false := by decide

/-! ### From a scale to a LUT entry (42_decode.md R94, and the table of 95_test_vectors.md) -/

theorem test_scale_254_5 : LutEntry.ofScale ⟨509, 2⟩ = some ⟨true, false, false, 0x0010182#25⟩ := by decide
theorem test_scale_minus_4 : LutEntry.ofScale ⟨-4, 1⟩ = some LutEntry.wattSecondsIn := by decide
theorem test_scale_tie_rounds_up : LutEntry.ofScale ⟨2 ^ 25, 1⟩ = some ⟨true, false, false, 1#25⟩ := by decide
theorem test_scale_half_is_not_representable : LutEntry.ofScale ⟨1, 2⟩ = none := by decide
theorem test_lut_word : LutEntry.wattSecondsIn.pack = 0xC400000#28 := by decide

/-! ### The command word (30_encoding.md R65; the illegal words of 95_test_vectors.md) -/

theorem test_decode_rdw : decodeWord 0b0001_0000_11111111_0000000000000000#32 = .instr (.rdw 0xFF#8) := by decide
theorem test_decode_wrw : decodeWord 0b0010_0000_01000000_0001001000110100#32 = .instr (.wrw 0x40#8 0x1234#16) := by decide
theorem test_decode_rdreg : decodeWord 0b0011_0000_00101011_0000000000000000#32 = .instr (.rdreg 0x2B#8) := by decide
theorem test_decode_decode : decodeWord 0b0100_0000_00010110_0000000000000000#32 = .instr (.decode 0x16#8) := by decide
theorem test_decode_pollall : decodeWord 0b0101_0000_00000000_0000000000000000#32 = .instr .pollall := by decide
theorem test_index_above_range_is_legal_word : decodeWord 0x40FF0000#32 = .instr (.decode 0xFF#8) := by decide
theorem test_illegal_opcodes :
    [0x00000000#32, 0xFFFFFFFF#32, 0x60000000#32].all (fun w => (decodeWord w).toOption == none) = true := by decide
theorem test_illegal_z : decodeWord 0x11000000#32 = .illegal .zField := by decide
theorem test_illegal_v : decodeWord 0x30FF0001#32 = .illegal .vField := by decide
theorem test_illegal_a : decodeWord 0x50010000#32 = .illegal .aField := by decide
theorem test_wrreg : encodeWord (wrreg 0x20#7 0x1234#16) = 0x20401234#32 := by decide
theorem test_table_word : decodeTableWord 32 0x302B0000 = some (.rdreg 0x2B#8) := by decide

/-! ### CSUM (40_checksum.md; the tables of 95_test_vectors.md) -/

theorem test_csum_empty : csum8 [] = 0x00#8 := by decide
theorem test_csum_wraps : csum8 [0xFF#8, 0xFF#8, 0xFF#8, 0xFF#8] = 0x04#8 := by decide
theorem test_csum_of_zero_sum : csum8 [0x80#8, 0x80#8] = 0x00#8 := by decide
theorem test_frame_ok : frameOk 0x34#8 0x12#8 0xBA#8 = true ∧ frameOk 0x10#8 0x00#8 0x01#8 = false := by decide
theorem test_byte_order : replyWord ⟨true, 0x34#8, 0x12#8, 0xBA#8⟩ = .ok 0x1234#16 := by decide

/-! ### Frames and port records (95_test_vectors.md, `ADDR7` = 0x5F) -/

theorem test_read_frame : (readRequest 0x5F#7 0x08#8).pack = 0x3A081ABF#48 := by decide
theorem test_write_frame : (writeRequest 0x5F#7 0x40#8 0x1234#16).pack = 0xBC12344004BE#48 := by decide
theorem test_write_frame_ffff : (writeRequest 0x5F#7 0x3B#8 0xFFFF#16).tx3 = 0x09#8 := by decide
theorem test_answer_record : (Xrsp.mk true 0x10#8 0x00#8 0xF0#8).pack = 0xF0001001#32 := by decide
theorem test_address_wraps : addressOf 0x7C#7 7#3 = 0x03#7 := by decide

/-! ### Single steps from reset with the test catalog (95_test_vectors.md, the programs) -/

/-- Reset with `CAT_T`, the words `ws` presented, the answers `as` ready and `k` entries taken. -/
def at0 (c : Catalog) (ws : List Word) (as : List Xrsp) (k : Nat) : State :=
  { State.resetOf ⟨0x58#7, c, false⟩ 7#3 with cmdIn := ws, xrspIn := as, rspReady := k }

/-- The next state of an outcome. -/
def nextOf : Host.Outcome State Fault Refusal → Option State
  | .next s => some s
  | .fault _ => none
  | .refused _ => none

/-- The entries taken in the run to an outcome, packed. -/
def packed (o : Host.Outcome State Fault Refusal) : Option (List (BitVec 224)) :=
  (nextOf o).map fun s => (entriesOf s.trace).map Entry.pack

/-- One statistics entry after an outcome. -/
def statOf (n : Index) (o : Host.Outcome State Fault Refusal) : Option StatEntry := (nextOf o).map fun s => s.statAt n

/-- The phase and the outstanding request after an outcome. -/
def waitsOn (o : Host.Outcome State Fault Refusal) : Option (Phase × Option Xreq) :=
  (nextOf o).map fun s => (s.phase, s.xreq)

abbrev ok16 : Xrsp := ⟨true, 0x10#8, 0x00#8, 0xF0#8⟩
abbrev bad16 : Xrsp := ⟨true, 0x10#8, 0x00#8, 0x01#8⟩
abbrev ok5 : Xrsp := ⟨true, 0x05#8, 0x00#8, 0xFB#8⟩
abbrev ok1 : Xrsp := ⟨true, 0x01#8, 0x00#8, 0xFF#8⟩
abbrev ok0 : Xrsp := ⟨true, 0x00#8, 0x00#8, 0x00#8⟩
abbrev failed : Xrsp := ⟨false, 0x00#8, 0x00#8, 0x00#8⟩

theorem test_rdw : packed (step (at0 catT [0x10080000#32] [ok16] 1)) = some [0x1000080088#224] := by decide
theorem test_rdw_transport_error : packed (step (at0 catT [0x10080000#32] [failed] 1)) = some [0x80082#224] := by decide
theorem test_wrw : packed (step (at0 catT [0x20401234#32] [ok0] 1)) = some [0x400080#224] := by decide
theorem test_rdreg_waits : waitsOn (step (at0 catT [0x30040000#32] [] 1)) = some (.xfer1, some (readRequest 0x5F#7 0x08#8)) := by
  decide
theorem test_bad_index : packed (step (at0 catT [0x302C0000#32] [] 1)) = some [0x2C0084#224] := by decide
theorem test_decode_csum_error : packed (step (at0 catT [0x40040000#32] [bad16] 1)) = some [0x80481#224] ∧
    statOf 0x04 (step (at0 catT [0x40040000#32] [bad16] 1)) = some StatEntry.atReset := by decide
theorem test_decode_pair_stat : statOf 0x16 (step (at0 catT [0x40160000#32] [ok5, ok1] 1)) =
    some ⟨0xFFFF#32, 0x10005#32⟩ := by decide
theorem test_decode_pair_second_fails : packed (step (at0 catT [0x40160000#32] [ok5, failed] 1)) = some [0x2E1682#224] := by
  decide
theorem test_pollall_goes_on_after_an_error :
    waitsOn (step (at0 catT [0x50000000#32] [failed] 1)) = some (.xfer1, some (readRequest 0x5F#7 0x02#8)) := by decide
theorem test_illegal_word : packed (step (at0 catT [0x30FF0001#32] [] 1)) = some [0x83#224] := by decide

/-- The word that withFetchWord places is run by the very next step, as the first after reset. -/
theorem test_first_word_after_reset : waitsOn (step (State.reset.withFetchWord 32 0x40040000)) =
    some (.xfer1, some (readRequest 0x5F#7 0x08#8)) := by decide

/-- A waiting RDW hands over, when its answer comes in a later step, the entry it hands over when the answer is there. -/
theorem test_rdw_answered_later :
    ((nextOf (step (at0 catT [0x10080000#32] [] 0))).map fun t => packed (step (feed [ok16] 1 t))) =
      some (some [0x1000080088#224]) := by decide

/-! ### Witnesses: a state and operands that meet the hypotheses of each statement that has any -/

/-- IDLE with one answer ready and one entry taken. -/
abbrev one (a : Xrsp) : State := at0 catT [] [a] 1

/-- IDLE with two answers ready and one entry taken, index 42 paired. -/
abbrev two (a b : Xrsp) : State := at0 catEnd [] [a, b] 1

/-- BUSY: `RDW 0x08` waits for its answer. -/
def waiting : State :=
  { at0 catT [0x50000000#32] [] 0 with
    phase := .xfer1
    lat := { Latches.atReset with cmd := 0x10080000#32 }
    xreq := some (readRequest 0x5F#7 0x08#8)
    trace := [.command 0x10080000#32, .request (readRequest 0x5F#7 0x08#8)] }

/-- BUSY: `DECODE 0x16` waits for the second word of the pair. -/
def waiting2 : State :=
  { at0 catT [] [] 0 with
    phase := .xfer2
    lat := { Latches.atReset with cmd := 0x40160000#32, rawLo := 5#16 }
    xreq := some (readRequest 0x5F#7 0x2E#8)
    trace := [.command 0x40160000#32, .request (readRequest 0x5F#7 0x2C#8), .answer ok5,
      .request (readRequest 0x5F#7 0x2E#8)] }

/-- BUSY: `RDW 0x08` offers its entry and the host takes none. -/
def offering : State :=
  { at0 catT [] [] 0 with
    phase := .respond
    lat := { Latches.atReset with cmd := 0x10080000#32 }
    rsp := some (noValue .xportErr 0 8 true)
    trace := [.command 0x10080000#32, .request (readRequest 0x5F#7 0x08#8), .answer failed] }

/-- Enough valid answers for a poll under `CAT_T`, which has one pair, and a host that takes every entry. -/
def polling : State := at0 catT [] (List.replicate 45 ok0) 44

theorem statOk_of_reset {s : State} (h : s.stat = Vector.replicate nreg StatEntry.atReset) : s.StatOk := by
  intro n
  have e : s.statAt n = StatEntry.atReset := by simp [State.statAt, h, Vector.get_eq_getElem]
  rw [e]
  exact ⟨by decide, .inl rfl⟩

theorem witness_EncodeOfDecodeIsTheWord : decodeWord 0x20FFFFFF#32 = .instr (.wrw 0xFF#8 0xFFFF#16) := by decide

theorem witness_WordSelectsTheRowItDecodesTo :
    (0x10FF0000#32 &&& Mnemonic.rdw.mask = Mnemonic.rdw.matchWord) ∧
    (decodeWord 0x10FF0000#32 = .instr (.rdw 0xFF#8)) ∧
    (∀ m : Mnemonic, 0x30FF0001#32 &&& m.mask ≠ m.matchWord) := by
  refine ⟨by decide, by decide, ?_⟩
  intro m
  cases m <;> decide

theorem witness_IllegalWordIsRefusedWithOneEntry :
    (Accepts (at0 catT [0xFFFFFFFF#32] [] 1) 0xFFFFFFFF#32 []) ∧ (at0 catT [0xFFFFFFFF#32] [] 1).cfg.admitted = true ∧
    (at0 catT [0xFFFFFFFF#32] [] 1).rspReady = 0 + 1 ∧ (∀ m : Mnemonic, 0xFFFFFFFF#32 &&& m.mask ≠ m.matchWord) := by
  refine ⟨⟨rfl, rfl, by decide, rfl⟩, by decide, rfl, ?_⟩
  intro m
  cases m <;> decide

theorem witness_StepRunsTheAcceptedCommand :
    Accepts (at0 catT [0x402B0000#32] [ok16] 1) 0x402B0000#32 [] ∧ decodeWord 0x402B0000#32 = .instr (.decode 0x2B#8) :=
  ⟨⟨rfl, rfl, by decide, rfl⟩, by decide⟩

theorem witness_GenerateAndValidateAgree : frameOk 0xFF#8 0xFF#8 0x02#8 = true := by decide

theorem witness_ChecksumIsTheNegatedWrappedSumInAnyOrder : [0x08#8, 0xBE#8].Perm [0xBE#8, 0x08#8] := by decide

theorem witness_ReplyCheckDetectsSingleByteErrorsAndNotTheSwap :
    frameOk 0x34#8 0x12#8 0xBA#8 = true ∧ 0x35#8 ≠ 0x34#8 ∧ 0x35#8 ≠ 0x12#8 ∧ 0x35#8 ≠ 0xBA#8 := by decide

/-- For RdwReadsOneWireRegister, WrwWritesOneWireRegister and RdregReadsTheRawWordOfAnIndex: a valid reply, an invalid one and
a failed transport. -/
theorem witness_OneTransaction : ∀ a ∈ [ok16, bad16, failed],
    (one a).cfg.admitted = true ∧ (one a).xrspIn = a :: [] ∧ (one a).rspReady = 0 + 1 := by decide

theorem witness_IndexAbove43IsRefusedWithOneEntry :
    0x2B < (0x2C#8).toNat ∧ 0x2B < (0xFF#8).toNat ∧ (one ok16).cfg.admitted = true ∧ (one ok16).rspReady = 0 + 1 := by decide

theorem witness_DecodeThatMakesOneRead :
    ((one ok16).cfg.admitted = true ∧ (one ok16).rspReady = 0 + 1 ∧ ((one ok16).cfg.lut 43).pair = false ∧ ValidReply ok16) ∧
    ((one ok16).cfg.lut 0x01).bitf = true ∧
    (((one bad16).cfg.lut 0x16).pair = true ∧ ¬ ValidReply bad16) ∧ ¬ ValidReply failed := by decide

theorem witness_DecodeThatMakesTwoReads :
    (two ok5 ok1).cfg.admitted = true ∧ (two ok5 ok1).rspReady = 0 + 1 ∧ ((two ok5 ok1).cfg.lut 42).pair = true ∧
      ValidReply ok5 ∧ ValidReply ok1 ∧ ¬ ValidReply bad16 ∧ ¬ ValidReply failed := by decide

theorem witness_UnknownRegisterPassesThroughUnscaled :
    (one ok16).cfg.admitted = true ∧ (one ok16).rspReady = 0 + 1 ∧ ((one ok16).cfg.lut 0x02).known = false ∧
      ValidReply ok16 := by decide

theorem witness_ReciprocalIsRoundedToNearest :
    LutEntry.ofScale ⟨0, 1⟩ = some ⟨true, false, true, 0x1000000#25⟩ ∧ (Scale.mk 509 2).representable = true ∧
      (Scale.mk 1 2).representable = false := by decide

theorem witness_ScalerIsCloseToTheQuotient :
    (LutEntry.ofScale ⟨509, 2⟩ = some ⟨true, false, false, 0x0010182#25⟩ ∧ (509 : Int) ≠ 0) ∧
    ((2 : ℚ) ^ 24 / |((32 : Int) : ℚ) / ((1 : Nat) : ℚ)| = ((2 ^ 19 : Int) : ℚ)) :=
  ⟨by decide, by norm_num⟩

theorem witness_DocumentExamplesDecode :
    ((one ok16).cfg.admitted = true ∧ (one ok16).rspReady = 0 + 1 ∧ (one ok16).xrspIn = ok16 :: []) ∧
    ((two ok5 ok1).cfg.admitted = true ∧ (two ok5 ok1).rspReady = 0 + 1 ∧ (two ok5 ok1).xrspIn = ok5 :: ok1 :: []) := by
  decide

/-- At index 43 the request is for wire byte 0x56. -/
theorem witness_IndexCommandsReadEvenWireBytes :
    (Instr.rdreg 0x2B#8).mnemonic = .rdreg ∧
    (nextOf (exec (.rdreg 0x2B#8) (one ok16))).map (fun t => (requestsOf (newEvents (one ok16) t)).map fun q => q.tx0) =
      some [0x56#8] := by decide

theorem witness_UnadmittedCatalogIsRefused : (at0 catBad [] [] 0).cfg.admitted = false := by decide

/-- Both sides of the equivalence: admitted, with a pair at the boundary index 42; and not, for want of a document row. -/
theorem witness_AdmissionIsTheFiveConditionsAndTheDocumentRows :
    (Config.mk 0x58#7 catEnd false).admitted = true ∧ ((Config.mk 0x58#7 catEnd false).lut 42).pair = true ∧
      (Config.mk 0x58#7 catBad false).admitted = false := by decide

theorem witness_StatisticsAreTheExtremesOfTheValues : (one ok16).statAt 43 = StatEntry.atReset := by decide

theorem witness_StepKeepsTheStatisticsInOrder :
    (at0 catT [0x40040000#32] [ok16] 1).StatOk ∧ (nextOf (step (at0 catT [0x40040000#32] [ok16] 1))).isSome = true ∧
      (at0 catT [0x40040000#32] [ok16] 1).resetPin = false :=
  ⟨statOk_of_reset rfl, by decide, rfl⟩

theorem inv_of_words (ws : List Word) (as : List Xrsp) (k : Nat) : (at0 catT ws as k).Inv :=
  ⟨rfl, Nat.zero_le _, rfl, statOk_of_reset rfl⟩

theorem witness_StatisticsAreDeterminedByTheReportedValues :
    (at0 catT [0x40040000#32] [ok16] 1).Inv ∧ (at0 catT [0x40040000#32] [ok16] 1).StatIsReported ∧
      (nextOf (step (at0 catT [0x40040000#32] [ok16] 1))).isSome = true := by
  refine ⟨inv_of_words _ _ _, ?_, by decide⟩
  intro n
  simp [at0, State.resetOf, State.statAt, Vector.get_eq_getElem, State.reportedValues, entriesSinceReset]

/-- For RawCommandsLeaveTheStatisticsAlone and CommandsLeaveTheConfigurationAlone. -/
theorem witness_RawCommands :
    (nextOf (exec (.rdw 0x08#8) (one ok16))).isSome = true ∧ (nextOf (exec (.wrw 0x40#8 0x1234#16) (one ok0))).isSome = true ∧
      (nextOf (exec (.rdreg 0x2B#8) (one bad16))).isSome = true := by decide

theorem witness_DecodeTouchesOnlyItsOwnStatistics :
    (nextOf (exec (.decode 0x16#8) (two ok5 ok1))).isSome = true ∧ (0x17 : Index).val ≠ (0x16#8).toNat := by decide

theorem witness_DecodedEntriesLieWithinTheirStatistics :
    (Instr.decode 0x04#8).mnemonic = .decode ∧
    (nextOf (exec (.decode 0x04#8) (one ok16))).map (fun t => (entriesOf (newEvents (one ok16) t)).map Entry.status) =
      some [.ok] := by decide

/-- For PollallEmitsFortyFourEntriesInOrder, CleanPollReadsEachIndexAndEachHighWord and PollDecodesEachIndexOnItsOwn. -/
theorem witness_Polls :
    polling.cfg.admitted = true ∧ pairCount polling.cfg = 1 ∧ 44 + pairCount polling.cfg ≤ polling.xrspIn.length ∧
      polling.rspReady = 0 + 44 ∧ (∀ a ∈ polling.xrspIn.take (44 + pairCount polling.cfg), ValidReply a) := by decide

theorem witness_EveryCommandIsItsBigStep :
    (two ok5 ok1).cfg.admitted = true ∧ (two ok5 ok1).phase = .idle ∧ (two ok5 ok1).controlOk = true ∧
    (bigStep (two ok5 ok1).cfg (two ok5 ok1).addr7 (two ok5 ok1).stat (.decode 0x2A#8) (two ok5 ok1).xrspIn).map
      (fun r => decide ((entriesOf r.events).length ≤ (two ok5 ok1).rspReady)) = some true := by decide

/-- Both branches, the block ends IDLE and it does not, from each phase that a run is cut at: BUSY; IDLE with a word; IDLE
without one. -/
theorem witness_InputsMayComeInPieces :
    (waiting.Inv ∧ waiting.resetPin = false ∧ (nextOf (step waiting)).map State.phase = some .xfer1) ∧
    ((feed [ok16] 1 waiting).Inv ∧ (nextOf (step (feed [ok16] 1 waiting))).map State.phase = some .idle) ∧
    ((at0 catT [0x10080000#32] [] 0).Inv ∧ (at0 catT [0x10080000#32] [] 0).resetPin = false ∧
      (nextOf (step (at0 catT [0x10080000#32] [] 0))).map State.phase = some .xfer1) ∧
    (nextOf (step (at0 catT [0x40160000#32] [ok5] 0))).map State.phase = some .xfer2 ∧
    (nextOf (step (at0 catT [0x10080000#32] [ok16] 0))).map State.phase = some .respond ∧
    (nextOf (step (at0 catT [0x10080000#32] [ok16] 1))).map State.phase = some .idle ∧
    (nextOf (step (at0 catT [] [] 0))).map State.phase = some .idle :=
  ⟨⟨⟨by decide, by decide, by decide, statOk_of_reset rfl⟩, rfl, by decide⟩,
   ⟨⟨by decide, by decide, by decide, statOk_of_reset rfl⟩, by decide⟩,
   ⟨inv_of_words _ _ _, rfl, by decide⟩, by decide, by decide, by decide, by decide⟩

theorem witness_OnlyResetWritesTheDeviceAddress :
    (nextOf (step (at0 catT [0x40040000#32] [ok16] 1))).isSome = true ∧
    (nextOf (step { waiting with resetPin := true })).isSome = true := by decide

/-- In mid-command, with the answer of the outstanding request already there. -/
theorem witness_ResetPutsTheBlockInItsResetState :
    ({ waiting with resetPin := true, xrspIn := [ok16] } : State).resetPin = true ∧ waiting.xreq.isSome = true := by decide

theorem witness_StepKeepsTheMachineInvariant :
    ((at0 catT [0x50000000#32] [ok0] 44).Inv ∧ (nextOf (step (at0 catT [0x50000000#32] [ok0] 44))).isSome = true) ∧
    (waiting.Inv ∧ (nextOf (step waiting)).isSome = true) :=
  ⟨⟨inv_of_words _ _ _, by decide⟩, ⟨by decide, by decide, by decide, statOk_of_reset rfl⟩, by decide⟩

theorem witness_StatesInOrderStepToStatesInOrder :
    (waiting.Inv ∧ waiting.cfg.admitted = true) ∧
    ((at0 catT [0x50000000#32] [ok0] 44).Inv ∧ (at0 catT [0x50000000#32] [ok0] 44).cfg.admitted = true) :=
  ⟨⟨⟨by decide, by decide, by decide, statOk_of_reset rfl⟩, by decide⟩, inv_of_words _ _ _, by decide⟩

theorem witness_EveryReachableStateSteps : Reachable State.reset ∧ Reachable ((EnvMove.present 0x50000000#32).apply State.reset) :=
  ⟨.start _ _ (by decide), .byMove _ _ (.start _ _ (by decide))⟩

theorem witness_BusyBlockAcceptsNoCommand :
    waiting.resetPin = false ∧ waiting.phase ≠ .idle ∧ waiting.cmdIn ≠ [] ∧ (nextOf (step waiting)).isSome = true := by decide

theorem witness_SilentTransportHangsTheBlock :
    (waiting.resetPin = false ∧ waiting.controlOk = true ∧ waiting.cfg.admitted = true ∧ waiting.phase = .xfer1 ∧
      waiting.xrspIn = []) ∧
    (waiting2.resetPin = false ∧ waiting2.controlOk = true ∧ waiting2.cfg.admitted = true ∧ waiting2.phase = .xfer2 ∧
      waiting2.xrspIn = []) := by decide

theorem witness_UntakenEntryStallsTheBlock :
    offering.resetPin = false ∧ offering.controlOk = true ∧ offering.cfg.admitted = true ∧ offering.phase = .respond ∧
      offering.rspReady = 0 := by decide

/-- `s` with the answer there and the transport assumed live. -/
def live (s : State) : State := { s with cfg := { s.cfg with transportLive := true }, xrspIn := [ok1] }

theorem witness_LiveTransportMovesTheBlock :
    ((live waiting).cfg.transportLive = true ∧ (live waiting).TransportKeepsUp ∧ (live waiting).resetPin = false ∧
      (live waiting).controlOk = true ∧ (live waiting).cfg.admitted = true ∧ (live waiting).phase = .xfer1) ∧
    ((live waiting2).cfg.transportLive = true ∧ (live waiting2).TransportKeepsUp ∧ (live waiting2).resetPin = false ∧
      (live waiting2).controlOk = true ∧ (live waiting2).cfg.admitted = true ∧ (live waiting2).phase = .xfer2) :=
  ⟨⟨rfl, fun _ _ => by decide, rfl, by decide, by decide, rfl⟩, rfl, fun _ _ => by decide, rfl, by decide, by decide, rfl⟩

theorem witness_CommandWithoutAnAnswerWaits : (at0 catT [] [] 1).cfg.admitted = true ∧ (at0 catT [] [] 1).xrspIn = [] := by
  decide

/-- IDLE with all latches and `POLL_IDX` different; and BUSY with the latches that are not read different. -/
theorem witness_LatchesHaveNoEffectOutsideACommand :
    (one ok16).LatchAlike { one ok16 with lat := { Latches.atReset with cmd := 0x50000000#32, rawLo := 7#16 }, pollIdx := 9#6 } ∧
    waiting.LatchAlike { waiting with lat := { waiting.lat with rawLo := 7#16, value := 1#32 }, pollIdx := 9#6 } ∧
    waiting2.LatchAlike { waiting2 with lat := { waiting2.lat with rawHi := 7#16 } } :=
  ⟨⟨rfl, fun h => absurd rfl h, fun h => absurd rfl h, fun h => by cases h⟩,
   ⟨rfl, fun _ => rfl, fun _ h => absurd h (by decide), fun h => by cases h⟩,
   ⟨rfl, fun _ => rfl, fun _ _ => rfl, fun _ => rfl⟩⟩

end Sys2Proof.Tests
end

section
/-! SUPPORT. A command from its word: encoder and decoder undo each other, and every command and every refused word runs the
block from the one state `start` gives (10_state.md R17, 30_encoding.md R51). What `start` does is said once, for all words. -/

namespace Sys2Proof.Machine

open Sys2Proof

/-- The fields of every encoded command are its opcode, zero and its operands. -/
theorem fields_of_encodeWord (i : Instr) : Laws.Fields.Statement i := by
  cases i with
  | rdw r => exact Laws.Fields.rdw r
  | wrw r v => exact Laws.Fields.wrw r v
  | rdreg n => exact Laws.Fields.rdreg n
  | decode n => exact Laws.Fields.decode n
  | pollall => exact Laws.Fields.pollall

theorem decodeWord_encodeWord (i : Instr) : decodeWord (encodeWord i) = .instr i := by
  obtain ⟨ho, hz, ha, hv⟩ := fields_of_encodeWord i
  unfold decodeWord needZeroV
  rw [ho, hz, ha, hv]
  cases i <;> rfl

theorem encodeWord_of_decodeWord {w : Word} {i : Instr} (h : decodeWord w = .instr i) : encodeWord i = w := by
  obtain ⟨ho, hz, ha, hv⟩ := fields_of_encodeWord i
  obtain ⟨ho', hz', ha', hv'⟩ := fields_of_decodeWord h
  exact word_ext (ho.trans ho'.symm) (hz.trans hz'.symm) (ha.trans ha'.symm) (hv.trans hv'.symm)

/-- The state from which the block runs when it has accepted the word `w`: the word is in `CMD`, and its command's first
request is out or its refusal is on offer. -/
def start (w : Word) (s : State) : State :=
  match decodeWord w with
  | .instr (.rdw r) => rdwStart r (s.latchWord w)
  | .instr (.wrw r v) => wrwStart r v (s.latchWord w)
  | .instr (.rdreg n) => rdregStart n (s.latchWord w)
  | .instr (.decode n) => decodeCmdStart n (s.latchWord w)
  | .instr .pollall => pollStart (s.latchWord w)
  | .illegal _ => (s.latchWord w).refuseCommand .illegalCmd 0#8

theorem exec_eq_runBlock (i : Instr) (s : State) : exec i s = runBlock (start (encodeWord i) s) := by
  unfold start
  rw [decodeWord_encodeWord]
  cases i <;> rfl

theorem runWord_eq_runBlock (w : Word) (s : State) : runWord w s = runBlock (start w s) := by
  unfold runWord
  split
  · next i hi => rw [exec_eq_runBlock, encodeWord_of_decodeWord hi]
  · next why hw => unfold execIllegal start; rw [hw]

theorem exec_eq_next {i : Instr} {s t : State} (h : exec i s = .next t) :
    s.cfg.admitted = true ∧ t = settle (start (encodeWord i) s) := by
  obtain ⟨hc, _⟩ := exec_settles h
  exact ⟨hc, (runBlock_eq_next ((exec_eq_runBlock i s).symm.trans h)).2⟩

/-- Every entry but that of a poll ends its command (43_minmax_poll.md R108). -/
theorem lastExpected_of_not_poll {s : State} (h : decodeWord s.lat.cmd ≠ .instr .pollall) : lastExpected s = true := by
  unfold lastExpected
  split
  · rfl
  · rfl
  · rfl
  · rfl
  · next hd => exact absurd hd h
  · rfl

/-- During a decode the first request is the read of its index (42_decode.md R97). -/
theorem firstRequest_of_decodeIndex {s : State} {n : Index} (h : decodeIndex s = some n) :
    firstRequest s = some (readRequest s.addr7 (wire n.val)) := by
  have hn := h
  unfold decodeIndex at h
  split at h
  · cases h
  · cases h
  · cases h
  · next hd => simp only [firstRequest, hd, hn, Option.map_some]
  · next hd => simp only [firstRequest, hd, hn, Option.map_some]
  · cases h

theorem answered1_of_decodeIndex {s : State} {n : Index} (h : decodeIndex s = some n) (a : Xrsp) :
    answered1 a s = decodeAnswered1 n (lastExpected s) a s := by
  obtain ⟨r, hd, _⟩ | ⟨r, v, hd, _⟩ | ⟨m, k, hd, _, _⟩ | ⟨k, hk, e⟩ | ⟨hf, _⟩ := answered1_cases a s
  · simp [decodeIndex, hd] at h
  · simp [decodeIndex, hd] at h
  · simp [decodeIndex, hd] at h
  · obtain rfl : k = n := Option.some.inj (hk.symm.trans h)
    exact e
  · rw [firstRequest_of_decodeIndex h] at hf; cases hf

theorem answered2_of_decodeIndex {s : State} {n : Index} (h : decodeIndex s = some n) (a : Xrsp) :
    answered2 a s = decodeAnswered2 n (lastExpected s) a s := by
  obtain ⟨k, hk, e⟩ | ⟨hk, _⟩ := answered2_cases a s
  · obtain rfl : k = n := Option.some.inj (hk.symm.trans h)
    exact e
  · rw [hk] at h; cases h

/-! During a POLLALL the index in progress is that of `POLL_IDX` (10_state.md R16). -/

theorem decodeIndex_of_poll {s : State} {n : Index} (hd : decodeWord s.lat.cmd = .instr .pollall)
    (hp : s.pollIdx = idxBits n) : decodeIndex s = some n := by
  simp only [decodeIndex, hd, hp, indexOfPoll_idxBits]

theorem lastExpected_of_poll {s : State} {n : Index} (hd : decodeWord s.lat.cmd = .instr .pollall)
    (hp : s.pollIdx = idxBits n) : lastExpected s = pollLast n := by
  simp only [lastExpected, hd, hp, indexOfPoll_idxBits]

theorem taken_of_poll {s : State} {n : Index} (hd : decodeWord s.lat.cmd = .instr .pollall)
    (hp : s.pollIdx = idxBits n) : taken s = pollTaken n s := by
  simp only [taken, hd, hp, indexOfPoll_idxBits]

theorem State.issue_issues (s : State) (ph : Phase) (q : Xreq) : s.Issues (s.issue ph q) ph q :=
  ⟨rfl, rfl, rfl, rfl, rfl, rfl, rfl, rfl, rfl, rfl⟩

/-- What the acceptance of a word leads to: its refusal is offered, or the first request of its command is issued, and a
POLLALL sets `POLL_IDX` to 0 before that (43_minmax_poll.md R108). -/
theorem start_cases (w : Word) (s : State) :
    (decodeWord w ≠ .instr .pollall ∧ ∃ st b, start w s = (s.latchWord w).refuseCommand st b) ∨
    (decodeWord w ≠ .instr .pollall ∧ ∃ q, firstRequest (s.latchWord w) = some q ∧
      start w s = (s.latchWord w).issue .xfer1 q) ∨
    (decodeWord w = .instr .pollall ∧
      start w s = ((s.latchWord w).setPoll 0#6).issue .xfer1 (readRequest s.addr7 (wire (0 : Index).val))) := by
  unfold start
  split
  · next r h => exact .inr (.inl ⟨by simp [h], _, by simp [firstRequest, h], rfl⟩)
  · next r v h => exact .inr (.inl ⟨by simp [h], _, by simp [firstRequest, h], rfl⟩)
  · next n h =>
    unfold rdregStart
    split
    · exact .inl ⟨by simp [h], _, _, rfl⟩
    · next k hk => exact .inr (.inl ⟨by simp [h], _, by simp [firstRequest, h, hk], rfl⟩)
  · next n h =>
    unfold decodeCmdStart
    split
    · exact .inl ⟨by simp [h], _, _, rfl⟩
    · next k hk => exact .inr (.inl ⟨by simp [h], _, by simp [firstRequest, decodeIndex, h, hk], rfl⟩)
  · next h => exact .inr (.inr ⟨h, rfl⟩)
  · next why h => exact .inl ⟨by simp [h], _, _, rfl⟩

/-- The start of a command leaves alone what `State.Keeps` names, but for the word it latches. -/
theorem start_keeps (w : Word) (s : State) : (s.latchWord w).Keeps (start w s) := by
  obtain ⟨_, st, b, h⟩ | ⟨_, q, _, h⟩ | ⟨_, h⟩ := start_cases w s <;> rw [h]
  · exact State.keeps_offer _ _
  · exact State.keeps_issue _ _ _
  · exact (State.keeps_setPoll _ _).trans (State.keeps_issue _ _ _)

theorem start_cmd (w : Word) (s : State) : (start w s).lat.cmd = w := (start_keeps w s).cmd

theorem start_stat (w : Word) (s : State) : (start w s).stat = s.stat := by
  obtain ⟨_, st, b, h⟩ | ⟨_, q, _, h⟩ | ⟨_, h⟩ := start_cases w s <;> rw [h] <;> rfl

theorem start_pollIdx {w : Word} (h : decodeWord w ≠ .instr .pollall) (s : State) :
    (start w s).pollIdx = s.pollIdx := by
  obtain ⟨_, st, b, e⟩ | ⟨_, q, _, e⟩ | ⟨hp, _⟩ := start_cases w s
  · rw [e]; rfl
  · rw [e]; rfl
  · exact absurd hp h

/-- A step that is no reset: an IDLE block without a word stays as it is, an IDLE block with a word runs from that word's
start, a BUSY block runs on. -/
theorem step_settles {s t : State} (hr : s.resetPin = false) (h : step s = .next t) :
    (s.phase = .idle ∧ s.cmdIn = [] ∧ t = s) ∨
    (s.phase = .idle ∧ s.cfg.admitted = true ∧ ∃ w ws, s.cmdIn = w :: ws ∧ t = settle (start w (s.accept w ws))) ∨
    (s.phase ≠ .idle ∧ s.cfg.admitted = true ∧ t = settle s) := by
  obtain ⟨hr', _⟩ | ⟨_, _, hp, hx, ht⟩ | ⟨_, _, hp, w, ws, i, hx, hd, he⟩ | ⟨_, _, hp, w, ws, why, hx, hd, he⟩ |
    ⟨_, _, hp, ha, ht⟩ := step_cases h
  · simp [hr] at hr'
  · exact .inl ⟨hp, hx, ht⟩
  · obtain ⟨ha, ht⟩ := exec_eq_next he
    rw [encodeWord_of_decodeWord hd] at ht
    exact .inr (.inl ⟨hp, ha, w, ws, hx, ht⟩)
  · obtain ⟨ha, ht⟩ := execIllegal_settles he
    exact .inr (.inl ⟨hp, ha, w, ws, hx, by rw [ht]; unfold start; rw [hd]⟩)
  · exact .inr (.inr ⟨hp, ha, ht⟩)

theorem step_reset {s t : State} (hr : s.resetPin = true) (h : step s = .next t) : t = applyReset s := by
  simpa [step, hr] using h.symm

/-- An induction over a step that is no reset: what holds before it, at the start of the word it accepts, and after each
event of the run, holds after it. -/
theorem step_induction {P : State → Prop} {s t : State} (hr : s.resetPin = false) (h : step s = .next t) (hs : P s)
    (hstart : ∀ w ws, s.phase = .idle → s.cmdIn = w :: ws → P (start w (s.accept w ws)))
    (hP : ∀ u v, P u → advance u = some v → P v) : P t := by
  obtain ⟨_, _, rfl⟩ | ⟨hp, _, w, ws, hx, rfl⟩ | ⟨_, _, rfl⟩ := step_settles hr h
  · exact hs
  · exact settle_induction hP (hstart w ws hp hx)
  · exact settle_induction hP hs

/-- An IDLE block that is out of reset and in order takes the word that is presented. -/
theorem step_idle {s : State} (hr : s.resetPin = false) (hc : s.controlOk = true) (hp : s.phase = .idle) :
    step s = takeCommand s := by
  simp [step, hr, hc, hp]

/-- A BUSY block that is out of reset and in order runs on. -/
theorem step_busy {s : State} (hr : s.resetPin = false) (hc : s.controlOk = true) (hp : s.phase ≠ .idle) :
    step s = runBlock s := by
  unfold step
  rw [if_neg (by simp [hr]), if_pos hc]
  split
  · contradiction
  · rfl
  · rfl
  · rfl

/-- The word presented to an IDLE block is run from its start. -/
theorem takeCommand_cons {s : State} {w : Word} {ws : List Word} (h : s.cmdIn = w :: ws) :
    takeCommand s = runBlock (start w (s.accept w ws)) := by
  unfold takeCommand
  rw [h]
  exact runWord_eq_runBlock _ _

theorem takeCommand_nil {s : State} (h : s.cmdIn = []) : takeCommand s = .next s := by
  unfold takeCommand; rw [h]

end Sys2Proof.Machine
end

section
/-! SUPPORT. What one event does to the statistics, the port record and `POLL_IDX`, and when the control state fits. -/

namespace Sys2Proof.Machine

open Sys2Proof

/-- `e'` may follow `e` between resets (10_state.md R14): it is in order if `e` is, and the extremes have only widened. -/
def StatEntry.Widens (e e' : StatEntry) : Prop :=
  (e.ok → e'.ok) ∧ e'.min.toNat ≤ e.min.toNat ∧ e.max.toNat ≤ e'.max.toNat

theorem StatEntry.Widens.rfl (e : StatEntry) : e.Widens e := ⟨id, le_rfl, le_rfl⟩

theorem StatEntry.Widens.trans {a b c : StatEntry} (h : a.Widens b) (k : b.Widens c) : a.Widens c :=
  ⟨k.1 ∘ h.1, k.2.1.trans h.2.1, h.2.2.trans k.2.2⟩

theorem StatEntry.widens_update (e : StatEntry) (v : Word) : e.Widens (e.update v) :=
  ⟨update_ok v, update_monotone e v⟩

theorem advance_widens {s t : State} (h : advance s = some t) (n : Index) : (s.statAt n).Widens (t.statAt n) := by
  obtain h | ⟨m, v, _, h⟩ := advance_stat h
  · rw [State.statAt_congr h]; exact StatEntry.Widens.rfl _
  · rw [State.statAt_congr h, statUpdate_statAt]
    split
    · next e => subst e; exact StatEntry.widens_update _ _
    · exact StatEntry.Widens.rfl _

theorem StatEntry.ok_atReset : StatEntry.atReset.ok := ⟨le_rfl, .inl rfl⟩

/-- Statistics as reset leaves them are in order (10_state.md R14). -/
theorem statOk_of_stat_atReset {s : State} (h : s.stat = Vector.replicate nreg StatEntry.atReset) : s.StatOk := by
  intro n
  have e : s.statAt n = StatEntry.atReset := by simp [State.statAt, h, Vector.get_eq_getElem]
  rw [e]; exact StatEntry.ok_atReset

/-- A command that is no POLLALL does not write `POLL_IDX` (10_state.md R16). -/
theorem advance_pollIdx {s t : State} (hd : decodeWord s.lat.cmd ≠ .instr .pollall) (h : advance s = some t) :
    t.pollIdx = s.pollIdx := by
  obtain ⟨a, rest, _, _, rfl⟩ | ⟨a, rest, _, _, rfl⟩ | ⟨e, k, _, _, _, rfl⟩ := advance_cases h
  · obtain ⟨e, ho, _⟩ | ⟨q, _, _, hi⟩ | ⟨_, hs⟩ := answered1_effect a (s.receive a rest)
    · exact ho.pollIdx
    · exact hi
    · rw [hs]; rfl
  · obtain ⟨e, ho, _⟩ | ⟨_, hs⟩ := answered2_effect a (s.receive a rest)
    · exact ho.pollIdx
    · rw [hs]; rfl
  · obtain ⟨hp, _⟩ | ⟨_, hs⟩ := taken_cases (s.handOver e)
    · exact absurd hp hd
    · rw [hs]; rfl

/-- The events that a run adds to the port record hold no acceptance of a word. -/
def AddsNoCommand (s t : State) : Prop := ∃ evs, t.trace = s.trace ++ evs ∧ ∀ w, Event.command w ∉ evs

theorem AddsNoCommand.trans {s t u : State} (h : AddsNoCommand s t) (k : AddsNoCommand t u) : AddsNoCommand s u := by
  obtain ⟨xs, hx, nx⟩ := h
  obtain ⟨ys, hy, ny⟩ := k
  exact ⟨xs ++ ys, by rw [hy, hx, List.append_assoc], fun w hw => (List.mem_append.1 hw).elim (nx w) (ny w)⟩

theorem AddsNoCommand.of_trace_eq {s t : State} (h : t.trace = s.trace) : AddsNoCommand s t := ⟨[], by simp [h], by simp⟩

theorem AddsNoCommand.of_issues {s t : State} {ph : Phase} {q : Xreq} (h : s.Issues t ph q) : AddsNoCommand s t :=
  ⟨[.request q], h.trace, by simp⟩

theorem addsNoCommand_receive (s : State) (a : Xrsp) (rest : List Xrsp) : AddsNoCommand s (s.receive a rest) :=
  ⟨[.answer a], rfl, by simp⟩

theorem addsNoCommand_handOver (s : State) (e : Entry) : AddsNoCommand s (s.handOver e) := ⟨[.entry e], rfl, by simp⟩

theorem advance_addsNoCommand {s t : State} (h : advance s = some t) : AddsNoCommand s t := by
  obtain ⟨a, rest, _, _, rfl⟩ | ⟨a, rest, _, _, rfl⟩ | ⟨e, k, _, _, _, rfl⟩ := advance_cases h
  · refine (addsNoCommand_receive s a rest).trans ?_
    obtain ⟨e, ho, _⟩ | ⟨q, _, hi, _⟩ | ⟨_, hs⟩ := answered1_effect a (s.receive a rest)
    · exact .of_trace_eq ho.trace
    · exact .of_issues hi
    · rw [hs]; exact .of_trace_eq rfl
  · refine (addsNoCommand_receive s a rest).trans ?_
    obtain ⟨e, ho, _⟩ | ⟨_, hs⟩ := answered2_effect a (s.receive a rest)
    · exact .of_trace_eq ho.trace
    · rw [hs]; exact .of_trace_eq rfl
  · refine (addsNoCommand_handOver s e).trans ?_
    obtain ⟨q, _, hi, _⟩ | ⟨_, hs⟩ := taken_effect (s.handOver e)
    · exact .of_issues hi
    · rw [hs]; exact .of_trace_eq rfl

/-- No decode is in progress during RDW, WRW and RDREG. -/
theorem decodeIndex_of_raw {i : Instr} {s : State} (hm : i.mnemonic = .rdw ∨ i.mnemonic = .wrw ∨ i.mnemonic = .rdreg)
    (hd : decodeWord s.lat.cmd = .instr i) : decodeIndex s = none := by
  unfold decodeIndex
  rw [hd]
  cases i with
  | rdw r => rfl
  | wrw r v => rfl
  | rdreg n => rfl
  | decode n => simp [Instr.mnemonic] at hm
  | pollall => simp [Instr.mnemonic] at hm

theorem settle_stat_of_raw {i : Instr} {s : State} (hm : i.mnemonic = .rdw ∨ i.mnemonic = .wrw ∨ i.mnemonic = .rdreg)
    (hd : decodeWord s.lat.cmd = .instr i) : (settle s).stat = s.stat := by
  have key := settle_induction (s := s) (P := fun u => decodeWord u.lat.cmd = .instr i ∧ u.stat = s.stat) ?_ ⟨hd, rfl⟩
  · exact key.2
  · rintro u v ⟨hu, hs⟩ ha
    refine ⟨by rw [(advance_keeps ha).cmd]; exact hu, ?_⟩
    obtain h | ⟨n, _, hn, _⟩ := advance_stat ha
    · exact h.trans hs
    · rw [decodeIndex_of_raw hm hu] at hn; cases hn

theorem settle_pollIdx {s : State} (hd : decodeWord s.lat.cmd ≠ .instr .pollall) : (settle s).pollIdx = s.pollIdx := by
  have key := settle_induction (s := s)
    (P := fun u => decodeWord u.lat.cmd ≠ .instr .pollall ∧ u.pollIdx = s.pollIdx) ?_ ⟨hd, rfl⟩
  · exact key.2
  · rintro u v ⟨hu, hs⟩ ha
    exact ⟨by rw [(advance_keeps ha).cmd]; exact hu, (advance_pollIdx hu ha).trans hs⟩

end Sys2Proof.Machine
end

section
/-! SUPPORT. The machine's invariant (10_state.md R14, R16, R17; 20_memory.md R38, R40) is kept: when the control state fits in
each phase, what an offered entry and an issued request make of the invariant, and every start and every event by these. -/

namespace Sys2Proof.Machine

open Sys2Proof

theorem controlOk_idle {s : State} (h : s.phase = .idle) : s.controlOk = true ↔ s.xreq = none ∧ s.rsp = none := by
  simp [State.controlOk, h]

theorem controlOk_xfer1 {s : State} (h : s.phase = .xfer1) :
    s.controlOk = true ↔ ∃ q, s.xreq = some q ∧ firstRequest s = some q ∧ s.rsp = none := by
  cases hx : s.xreq <;> simp [State.controlOk, h, hx, eq_comm (b := firstRequest s)]

theorem controlOk_xfer2 {s : State} (h : s.phase = .xfer2) :
    s.controlOk = true ↔ ∃ q, s.xreq = some q ∧ secondRequest s = some q ∧ s.rsp = none := by
  cases hx : s.xreq <;> simp [State.controlOk, h, hx, eq_comm (b := secondRequest s)]

theorem controlOk_respond {s : State} (h : s.phase = .respond) :
    s.controlOk = true ↔ s.xreq = none ∧ ∃ e, s.rsp = some e ∧ e.last = lastExpected s := by
  simp [State.controlOk, h]

/-- One more event at the ports. -/
theorem PortOrder.read_snoc {o o' : PortOrder} {evs : List Event} (h : o.read evs = some o') (ev : Event) :
    o.read (evs ++ [ev]) = o'.next ev := by
  rw [PortOrder.read_append, h]
  simp only [Option.bind_some, PortOrder.read]
  cases o'.next ev <;> rfl

/-- An entry offered within a command, with no request outstanding and the right `LAST` bit, leaves the machine in order. -/
theorem State.Offers.inv {s t : State} {e : Entry} (h : s.Offers t e) (hx : s.xreq = none)
    (hl : e.last = lastExpected s) (hp : s.pollIdx.toNat ≤ 43) (ho : PortOrder.idle.read s.trace = some .busy)
    (hs : t.StatOk) : t.Inv where
  control := (controlOk_respond h.phase).2 ⟨h.xreq.trans hx, e, h.rsp, hl.trans (lastExpected_congr h.cmd h.pollIdx).symm⟩
  poll := by rw [h.pollIdx]; exact hp
  order := by rw [h.trace, h.phase]; exact ho
  stats := hs

/-- The request of a command in progress, issued when none is outstanding, leaves the machine in order. -/
theorem State.Issues.inv {s t : State} {ph : Phase} {q : Xreq} (h : s.Issues t ph q)
    (hw : ph = .xfer1 ∧ firstRequest t = some q ∨ ph = .xfer2 ∧ secondRequest t = some q) (hr : s.rsp = none)
    (hp : t.pollIdx.toNat ≤ 43) (ho : PortOrder.idle.read s.trace = some .busy) (hs : t.StatOk) : t.Inv where
  control := by
    obtain ⟨rfl, hq⟩ | ⟨rfl, hq⟩ := hw
    · exact (controlOk_xfer1 h.phase).2 ⟨q, h.xreq, hq, h.rsp.trans hr⟩
    · exact (controlOk_xfer2 h.phase).2 ⟨q, h.xreq, hq, h.rsp.trans hr⟩
  poll := hp
  order := by
    rw [h.trace, h.phase, PortOrder.read_snoc ho]
    obtain ⟨rfl, _⟩ | ⟨rfl, _⟩ := hw <;> rfl
  stats := hs

theorem State.StatOk.of_stat_eq {s t : State} (hs : s.StatOk) (h : t.stat = s.stat) : t.StatOk :=
  fun n => by rw [State.statAt_congr h]; exact hs n

theorem State.StatOk.advance {s t : State} (hs : s.StatOk) (h : advance s = some t) : t.StatOk :=
  fun n => (advance_widens h n).1 (hs n)

/-- The start of a presented word in an IDLE block. -/
theorem State.Inv.start {s : State} (h : s.Inv) (hp : s.phase = .idle) (w : Word) (ws : List Word) :
    (start w (s.accept w ws)).Inv := by
  obtain ⟨hx, hr⟩ := (controlOk_idle hp).1 h.control
  have ho : PortOrder.idle.read (s.accept w ws).trace = some .busy := PortOrder.read_snoc (by rw [h.order, hp]) _
  have hs : (Machine.start w (s.accept w ws)).StatOk := h.stats.of_stat_eq (start_stat _ _)
  obtain ⟨hd, st, b, e⟩ | ⟨hd, q, hq, e⟩ | ⟨hd, e⟩ := start_cases w (s.accept w ws) <;> rw [e] at hs ⊢
  · have hl : lastExpected ((s.accept w ws).latchWord w) = true := lastExpected_of_not_poll hd
    exact (State.offer_offers _ _).inv hx hl.symm h.poll ho hs
  · exact (State.issue_issues _ _ _).inv (.inl ⟨rfl, hq⟩) hr h.poll ho hs
  · have hq : firstRequest (((s.accept w ws).latchWord w).setPoll 0#6) = _ :=
      firstRequest_of_decodeIndex (decodeIndex_of_poll (n := 0) hd rfl)
    exact (State.issue_issues _ _ _).inv (.inl ⟨rfl, hq⟩) hr (Nat.zero_le _) ho hs

/-- Every event keeps the invariant. -/
theorem State.Inv.advance {s t : State} (h : s.Inv) (ha : advance s = some t) : t.Inv := by
  have hs : t.StatOk := h.stats.advance ha
  obtain ⟨a, rest, hp, _, rfl⟩ | ⟨a, rest, hp, _, rfl⟩ | ⟨e, k, hp, he, _, rfl⟩ := advance_cases ha
  · obtain ⟨q, _, hq, hr⟩ := (controlOk_xfer1 hp).1 h.control
    have ho : PortOrder.idle.read (s.receive a rest).trace = some .busy := PortOrder.read_snoc (by rw [h.order, hp]) _
    obtain ⟨e, hof, hl, _⟩ | ⟨q', hq', hi, hpi⟩ | ⟨hn, _⟩ := answered1_effect a (s.receive a rest)
    · exact hof.inv rfl hl h.poll ho hs
    · refine hi.inv (.inr ⟨rfl, ?_⟩) hr (by rw [hpi]; exact h.poll) ho hs
      rw [secondRequest_congr hi.cmd hpi hi.addr7 hi.cfg]; exact hq'
    · have : firstRequest s = none := hn
      simp [hq] at this
  · obtain ⟨q, _, hq, hr⟩ := (controlOk_xfer2 hp).1 h.control
    have ho : PortOrder.idle.read (s.receive a rest).trace = some .busy := PortOrder.read_snoc (by rw [h.order, hp]) _
    obtain ⟨e, hof, hl, _⟩ | ⟨hn, _⟩ := answered2_effect a (s.receive a rest)
    · exact hof.inv rfl hl h.poll ho hs
    · have : secondRequest s = none := hn
      simp [hq] at this
  · obtain ⟨hx, e', he', hl⟩ := (controlOk_respond hp).1 h.control
    obtain rfl : e = e' := Option.some.inj (he.symm.trans he')
    have ho : PortOrder.idle.read (s.handOver e).trace = some (if e.last then .idle else .busy) :=
      PortOrder.read_snoc (by rw [h.order, hp]) _
    obtain ⟨q, hq, hi, hpi, hle⟩ | ⟨hle, ht⟩ := taken_effect (s.handOver e)
    · have hlf : e.last = false := hl.trans hle
      exact hi.inv (.inl ⟨rfl, hq⟩) rfl hpi (by rw [ho, hlf]; rfl) hs
    · have hlt : e.last = true := hl.trans hle
      rw [ht] at hs ⊢
      exact ⟨(controlOk_idle rfl).2 ⟨hx, rfl⟩, h.poll, ho.trans (by rw [hlt]; rfl), hs⟩

/-- A block right after reset is in order whatever stands at its input ports and in its record (10_state.md R21). -/
theorem inv_applyReset {s : State} {o : PortOrder} (ho : PortOrder.idle.read s.trace = some o) : (applyReset s).Inv where
  control := rfl
  poll := Nat.zero_le _
  order := (PortOrder.read_snoc ho _).trans (by cases o <;> rfl)
  stats := statOk_of_stat_atReset rfl

theorem State.Inv.step {s t : State} (h : s.Inv) (hst : step s = .next t) : t.Inv := by
  cases hr : s.resetPin with
  | true => rw [step_reset hr hst]; exact inv_applyReset h.order
  | false => exact step_induction hr hst h (fun w ws hp _ => h.start hp w ws) (fun _ _ hu ha => hu.advance ha)

end Sys2Proof.Machine
end

section
namespace Sys2Proof.Proofs

open Sys2Proof Sys2Proof.Machine Sys2Proof.Claims

/-- Settles O40: every start and every event keeps the invariant, and reset establishes it. -/
theorem stepKeepsTheMachineInvariant : Obligations.StepKeepsTheMachineInvariant :=
  fun _ _ h hst => h.step hst

/-- Settles O27: every event leaves each entry as it is or updates it, and an update only widens it. -/
theorem stepKeepsTheStatisticsInOrder : Obligations.StepKeepsTheStatisticsInOrder := by
  intro s t hs hst
  cases hr : s.resetPin with
  | true =>
    rw [step_reset hr hst]
    exact ⟨statOk_of_stat_atReset rfl, fun h => absurd h (by simp)⟩
  | false =>
    have hw : ∀ n, (s.statAt n).Widens (t.statAt n) := by
      refine step_induction (P := fun u => ∀ n, (s.statAt n).Widens (u.statAt n)) hr hst
        (fun n => .rfl _) (fun w ws _ _ n => ?_) (fun u v hu ha n => (hu n).trans (advance_widens ha n))
      rw [State.statAt_congr (start_stat _ _)]
      exact .rfl _
    exact ⟨fun n => (hw n).1 (hs n), fun _ n => (hw n).2⟩

/-- Settles O29: no decode is in progress during a raw command, so no event of its run writes `STAT`. -/
theorem rawCommandsLeaveTheStatisticsAlone : Obligations.RawCommandsLeaveTheStatisticsAlone := by
  intro i s t hm h
  obtain ⟨_, rfl⟩ := exec_eq_next h
  rw [settle_stat_of_raw hm (by rw [start_cmd, decodeWord_encodeWord]), start_stat]

/-- Settles O37, by what start and run of a command leave alone. -/
theorem commandsLeaveTheConfigurationAlone : Obligations.CommandsLeaveTheConfigurationAlone := by
  intro i s t h
  obtain ⟨_, rfl⟩ := exec_eq_next h
  have hk := (start_keeps (encodeWord i) s).trans (settle_keeps _)
  refine ⟨hk.cfg, hk.resetPin, hk.addrSel, hk.cmdIn, hk.addr7, fun hi => ?_, ?_⟩
  · have hd : decodeWord (encodeWord i) ≠ .instr .pollall := by simpa [decodeWord_encodeWord] using hi
    rw [settle_pollIdx (by rw [start_cmd]; exact hd), start_pollIdx hd]
  · obtain ⟨evs, he⟩ := hk.trace
    exact ⟨evs, he.symm⟩

/-- Settles O38: a step that is no reset keeps `ADDR7` and the configuration, and a reset loads `ADDR7` from the pins. -/
theorem onlyResetWritesTheDeviceAddress : Obligations.OnlyResetWritesTheDeviceAddress := by
  intro s t h
  cases hr : s.resetPin with
  | true =>
    rw [step_reset hr h]
    exact ⟨rfl, fun h => absurd h (by simp), fun _ => addressOf_toNat _ _⟩
  | false =>
    have hk : t.cfg = s.cfg ∧ t.addr7 = s.addr7 := by
      refine step_induction (P := fun u => u.cfg = s.cfg ∧ u.addr7 = s.addr7) hr h ⟨rfl, rfl⟩ (fun w ws _ _ => ?_)
        (fun u v hu ha => ⟨(advance_keeps ha).cfg.trans hu.1, (advance_keeps ha).addr7.trans hu.2⟩)
      exact ⟨(start_keeps w _).cfg, (start_keeps w _).addr7⟩
    exact ⟨hk.1, fun _ => hk.2, fun h => absurd h (by simp)⟩

/-- Settles O43: a BUSY block only runs on, and no event of a run takes a word. -/
theorem busyBlockAcceptsNoCommand : Obligations.BusyBlockAcceptsNoCommand := by
  intro s t hr hp h
  obtain ⟨hi, _⟩ | ⟨hi, _⟩ | ⟨_, _, rfl⟩ := step_settles hr h
  · exact absurd hi hp
  · exact absurd hi hp
  · refine ⟨(settle_keeps s).cmdIn, fun w => ?_⟩
    obtain ⟨evs, he, hn⟩ := settle_induction (P := AddsNoCommand s)
      (fun _ _ hu ha => hu.trans (advance_addsNoCommand ha)) (.of_trace_eq rfl)
    rw [newEvents, he, List.drop_left]
    exact hn w

/-- Settles O7. -/
theorem stepRunsTheAcceptedCommand : Obligations.StepRunsTheAcceptedCommand := by
  intro s w ws i h hd
  rw [step_idle h.reset h.control h.idle, takeCommand_cons h.word, ← encodeWord_of_decodeWord hd, ← exec_eq_runBlock]
  rfl

/-- Settles O41. -/
theorem resetSatisfiesTheMachineInvariant : Obligations.ResetSatisfiesTheMachineInvariant :=
  fun _ _ => ⟨rfl, Nat.zero_le _, rfl, statOk_of_stat_atReset rfl⟩

/-- A command whose first request has been issued and not answered waits. -/
theorem runBlock_waits {s : State} (ha : s.cfg.admitted = true) (hp : s.phase = .xfer1) (hx : s.xrspIn = []) :
    runBlock s = .next s := by
  rw [runBlock_next ha, settle_silent (.inl hp) hx]

theorem rdregStart_of_index (n : Index) (s : State) :
    rdregStart (BitVec.ofNat 8 n.val) s = s.beginRead .xfer1 (wire n.val) := by
  unfold rdregStart
  rw [indexOfByte_ofNat]

theorem decodeCmdStart_of_index (n : Index) (s : State) :
    decodeCmdStart (BitVec.ofNat 8 n.val) s = s.beginRead .xfer1 (wire n.val) := by
  unfold decodeCmdStart
  rw [indexOfByte_ofNat]
  rfl

/-- Settles O47: each command's start issues its first request, and without an answer the run stays there. -/
theorem commandWithoutAnAnswerWaits : Obligations.CommandWithoutAnAnswerWaits := by
  intro s r v n ha hx
  refine ⟨⟨(rdwStart r (s.latchCommand (.rdw r))).lat, runBlock_waits ha rfl hx⟩,
    ⟨(wrwStart r v (s.latchCommand (.wrw r v))).lat, runBlock_waits ha rfl hx⟩, ?_,
    ⟨(pollStart (s.latchCommand .pollall)).lat, runBlock_waits ha rfl hx⟩⟩
  rintro i (rfl | rfl)
  · refine ⟨((s.latchCommand (.rdreg (BitVec.ofNat 8 n.val))).beginRead .xfer1 (wire n.val)).lat, ?_⟩
    rw [← wire_eq]
    exact (congrArg runBlock (rdregStart_of_index n _)).trans (runBlock_waits ha rfl hx)
  · refine ⟨((s.latchCommand (.decode (BitVec.ofNat 8 n.val))).beginRead .xfer1 (wire n.val)).lat, ?_⟩
    rw [← wire_eq]
    exact (congrArg runBlock (decodeCmdStart_of_index n _)).trans (runBlock_waits ha rfl hx)

end Sys2Proof.Proofs
end

section
/-! SUPPORT. Further answers and readiness (`feed`) do not disturb what the block does with the inputs that are there: every
operation, every event and every run commutes with them (10_state.md R17, R20). -/

namespace Sys2Proof.Machine

open Sys2Proof Sys2Proof.Claims

variable (xs : List Xrsp) (k : Nat)

@[simp] theorem feed_cfg (s : State) : (feed xs k s).cfg = s.cfg := rfl
@[simp] theorem feed_resetPin (s : State) : (feed xs k s).resetPin = s.resetPin := rfl
@[simp] theorem feed_cmdIn (s : State) : (feed xs k s).cmdIn = s.cmdIn := rfl
@[simp] theorem feed_xrspIn (s : State) : (feed xs k s).xrspIn = s.xrspIn ++ xs := rfl
@[simp] theorem feed_rspReady (s : State) : (feed xs k s).rspReady = s.rspReady + k := rfl
@[simp] theorem feed_phase (s : State) : (feed xs k s).phase = s.phase := rfl
@[simp] theorem feed_pollIdx (s : State) : (feed xs k s).pollIdx = s.pollIdx := rfl
@[simp] theorem feed_lat (s : State) : (feed xs k s).lat = s.lat := rfl
@[simp] theorem feed_rsp (s : State) : (feed xs k s).rsp = s.rsp := rfl
@[simp] theorem feed_controlOk (s : State) : (feed xs k s).controlOk = s.controlOk := rfl

theorem rdwAnswered_feed (r : Byte) (a : Xrsp) (s : State) :
    rdwAnswered r a (feed xs k s) = feed xs k (rdwAnswered r a s) := by
  unfold rdwAnswered
  cases replyWord a <;> rfl

theorem wrwAnswered_feed (r : Byte) (a : Xrsp) (s : State) :
    wrwAnswered r a (feed xs k s) = feed xs k (wrwAnswered r a s) := by
  unfold wrwAnswered
  split <;> rfl

theorem rdregAnswered_feed (n : Index) (a : Xrsp) (s : State) :
    rdregAnswered n a (feed xs k s) = feed xs k (rdregAnswered n a s) := by
  unfold rdregAnswered
  cases replyWord a <;> rfl

theorem decodeAnswered1_feed (n : Index) (last : Bool) (a : Xrsp) (s : State) :
    decodeAnswered1 n last a (feed xs k s) = feed xs k (decodeAnswered1 n last a s) := by
  unfold decodeAnswered1
  cases replyWord a with
  | error e => rfl
  | ok lo =>
    cases hp : (s.cfg.lut n).pair <;> simp only [feed_cfg, hp] <;> rfl

theorem decodeAnswered2_feed (n : Index) (last : Bool) (a : Xrsp) (s : State) :
    decodeAnswered2 n last a (feed xs k s) = feed xs k (decodeAnswered2 n last a s) := by
  unfold decodeAnswered2
  cases replyWord a <;> rfl

theorem answered1_feed (a : Xrsp) (s : State) : answered1 a (feed xs k s) = feed xs k (answered1 a s) := by
  unfold answered1
  simp only [feed_lat, feed_pollIdx]
  split
  · exact rdwAnswered_feed xs k _ a s
  · exact wrwAnswered_feed xs k _ a s
  · split
    · exact rdregAnswered_feed xs k _ a s
    · rfl
  · split
    · exact decodeAnswered1_feed xs k _ _ a s
    · rfl
  · split
    · exact decodeAnswered1_feed xs k _ _ a s
    · rfl
  · rfl

theorem answered2_feed (a : Xrsp) (s : State) : answered2 a (feed xs k s) = feed xs k (answered2 a s) := by
  unfold answered2
  simp only [feed_lat, feed_pollIdx]
  split
  · rfl
  · rfl
  · rfl
  · split
    · exact decodeAnswered2_feed xs k _ _ a s
    · rfl
  · split
    · exact decodeAnswered2_feed xs k _ _ a s
    · rfl
  · rfl

theorem pollTaken_feed (n : Index) (s : State) : pollTaken n (feed xs k s) = feed xs k (pollTaken n s) := by
  unfold pollTaken
  split <;> rfl

theorem taken_feed (s : State) : taken (feed xs k s) = feed xs k (taken s) := by
  unfold taken
  simp only [feed_lat, feed_pollIdx]
  split
  · rfl
  · rfl
  · rfl
  · rfl
  · split
    · exact pollTaken_feed xs k _ s
    · rfl
  · rfl

theorem receive_feed (a : Xrsp) (rest : List Xrsp) (s : State) :
    (feed xs k s).receive a (rest ++ xs) = feed xs k (s.receive a rest) := rfl

theorem handOver_feed {s : State} {m : Nat} (h : s.rspReady = m + 1) (e : Entry) :
    (feed xs k s).handOver e = feed xs k (s.handOver e) := by
  have hk : s.rspReady + k - 1 = s.rspReady - 1 + k := by omega
  simp only [State.handOver, feed, hk]

theorem start_feed (w : Word) (s : State) : start w (feed xs k s) = feed xs k (start w s) := by
  unfold start
  split
  · rfl
  · rfl
  · unfold rdregStart
    split <;> rfl
  · unfold decodeCmdStart
    split <;> rfl
  · rfl
  · rfl

/-- An event that happens with the inputs that are there happens likewise with more. -/
theorem advance_feed {s t : State} (h : advance s = some t) : advance (feed xs k s) = some (feed xs k t) := by
  obtain ⟨a, rest, hp, hx, rfl⟩ | ⟨a, rest, hp, hx, rfl⟩ | ⟨e, m, hp, he, hk, rfl⟩ := advance_cases h
  · rw [← answered1_feed, ← receive_feed]
    simp only [advance, feed_phase, hp, feed_xrspIn, hx, List.cons_append]
  · rw [← answered2_feed, ← receive_feed]
    simp only [advance, feed_phase, hp, feed_xrspIn, hx, List.cons_append]
  · rw [← taken_feed, ← handOver_feed xs k hk]
    simp only [advance, feed_phase, hp, feed_rsp, he, feed_rspReady, hk, Nat.add_right_comm m 1 k]

/-- A run on all the inputs goes through the state in which the run on the first of them waits. -/
theorem settle_feed (s : State) : settle (feed xs k s) = settle (feed xs k (settle s)) :=
  settle_induction (P := fun u => settle (feed xs k s) = settle (feed xs k u))
    (fun _ _ hu ha => hu.trans (settle_of_advance (advance_feed xs k ha))) rfl

end Sys2Proof.Machine
end

section
namespace Sys2Proof.Proofs

open Sys2Proof Sys2Proof.Machine Sys2Proof.Claims

/-- A step with all the inputs there leads through the state that the step with the first of them leads to. -/
theorem step_feed {s t : State} (xs : List Xrsp) (k : Nat) (hc : s.controlOk = true) (hr : s.resetPin = false)
    (h : step s = .next t) : step (feed xs k s) = .next (settle (feed xs k t)) := by
  obtain ⟨hp, hx, ht⟩ | ⟨hp, ha, w, ws, hx, ht⟩ | ⟨hp, ha, ht⟩ := step_settles hr h
  · rw [ht, settle_idle (s := feed xs k s) hp, step_idle (s := feed xs k s) hr hc hp]
    exact takeCommand_nil hx
  · have hstart : start w ((feed xs k s).accept w ws) = feed xs k (start w (s.accept w ws)) :=
      start_feed xs k w (s.accept w ws)
    rw [ht, ← settle_feed, step_idle (s := feed xs k s) hr hc hp, takeCommand_cons (s := feed xs k s) hx, hstart]
    exact runBlock_next (by rw [feed_cfg, (start_keeps w _).cfg]; exact ha)
  · rw [ht, ← settle_feed, step_busy (s := feed xs k s) hr hc hp]
    exact runBlock_next ha

/-- Settles O36: a run on all the inputs goes through the state where the run on the first of them waits, and that state's
own step, taken with the further inputs there, is the rest of the run. -/
theorem inputsMayComeInPieces : Obligations.InputsMayComeInPieces := by
  intro s t xs k hi hr h
  have hstep := step_feed xs k hi.control hr h
  refine ⟨fun hp => ?_, fun hp => ?_⟩
  · rw [hstep, settle_idle (s := feed xs k t) hp]
  · have hk : t.resetPin = false ∧ t.cfg.admitted = true := by
      obtain ⟨hs, _, rfl⟩ | ⟨_, ha, w, ws, _, rfl⟩ | ⟨_, ha, rfl⟩ := step_settles hr h
      · exact absurd hs hp
      · have hk := (start_keeps w _).trans (settle_keeps (start w (s.accept w ws)))
        exact ⟨hk.resetPin.trans hr, by rw [hk.cfg]; exact ha⟩
      · exact ⟨(settle_keeps s).resetPin.trans hr, by rw [(settle_keeps s).cfg]; exact ha⟩
    have hrest : step (feed xs k t) = .next (settle (feed xs k t)) := by
      rw [step_busy (s := feed xs k t) hk.1 (hi.step h).control hp]
      exact runBlock_next hk.2
    rw [hstep, hrest]

end Sys2Proof.Proofs
end

section
/-! SUPPORT. States that differ in the transient latches and `POLL_IDX` alone run alike (10_state.md R16, R18): every
operation, every event and every run keeps the likeness. -/

namespace Sys2Proof.Machine

open Sys2Proof

namespace State.SameButLatches

variable {s t : State}

theorem cfg (h : s.SameButLatches t) : t.cfg = s.cfg := (congrArg State.cfg h).symm
theorem resetPin (h : s.SameButLatches t) : t.resetPin = s.resetPin := (congrArg State.resetPin h).symm
theorem cmdIn (h : s.SameButLatches t) : t.cmdIn = s.cmdIn := (congrArg State.cmdIn h).symm
theorem xrspIn (h : s.SameButLatches t) : t.xrspIn = s.xrspIn := (congrArg State.xrspIn h).symm
theorem rspReady (h : s.SameButLatches t) : t.rspReady = s.rspReady := (congrArg State.rspReady h).symm
theorem addr7 (h : s.SameButLatches t) : t.addr7 = s.addr7 := (congrArg State.addr7 h).symm
theorem stat (h : s.SameButLatches t) : t.stat = s.stat := (congrArg State.stat h).symm
theorem phase (h : s.SameButLatches t) : t.phase = s.phase := (congrArg State.phase h).symm
theorem xreq (h : s.SameButLatches t) : t.xreq = s.xreq := (congrArg State.xreq h).symm
theorem rsp (h : s.SameButLatches t) : t.rsp = s.rsp := (congrArg State.rsp h).symm

end State.SameButLatches

/-- The likeness within a command, before the phase is known: `CMD` agrees, and `POLL_IDX` does during a POLLALL. -/
structure State.RunAlike (s t : State) : Prop where
  same : s.SameButLatches t
  cmd : t.lat.cmd = s.lat.cmd
  poll : decodeWord s.lat.cmd = .instr .pollall → t.pollIdx = s.pollIdx

theorem State.LatchAlike.refl (s : State) : s.LatchAlike s := ⟨rfl, fun _ => rfl, fun _ _ => rfl, fun _ => rfl⟩

theorem State.LatchAlike.run {s t : State} (h : s.LatchAlike t) (hp : s.phase ≠ .idle) : s.RunAlike t :=
  ⟨h.same, h.cmd hp, h.poll hp⟩

namespace State.RunAlike

variable {s t : State}

theorem alike (h : s.RunAlike t) (hr : s.phase = .xfer2 → t.lat.rawLo = s.lat.rawLo) : s.LatchAlike t :=
  ⟨h.same, fun _ => h.cmd, fun _ => h.poll, hr⟩

theorem statAt (h : s.RunAlike t) (n : Index) : t.statAt n = s.statAt n := State.statAt_congr h.same.stat n

theorem decodeIndex (h : s.RunAlike t) : decodeIndex t = decodeIndex s := by
  unfold Machine.decodeIndex
  rw [h.cmd]
  split
  · rfl
  · rfl
  · rfl
  · rfl
  · next hd => rw [h.poll hd]
  · rfl

theorem lastExpected (h : s.RunAlike t) : lastExpected t = lastExpected s := by
  unfold Machine.lastExpected
  rw [h.cmd]
  split
  · rfl
  · rfl
  · rfl
  · rfl
  · next hd => rw [h.poll hd]
  · rfl

theorem firstRequest (h : s.RunAlike t) : firstRequest t = firstRequest s := by
  unfold Machine.firstRequest
  rw [h.cmd, h.same.addr7, h.decodeIndex]

theorem secondRequest (h : s.RunAlike t) : secondRequest t = secondRequest s := by
  unfold Machine.secondRequest
  rw [h.same.addr7, h.same.cfg, h.decodeIndex]

theorem latchLo (h : s.RunAlike t) (v : Half) : (s.latchLo v).RunAlike (t.latchLo v) :=
  ⟨congrArg (State.latchLo v) h.same, h.cmd, h.poll⟩

theorem latchHi (h : s.RunAlike t) (v : Half) : (s.latchHi v).RunAlike (t.latchHi v) :=
  ⟨congrArg (State.latchHi v) h.same, h.cmd, h.poll⟩

theorem putStat (h : s.RunAlike t) (n : Index) (e : StatEntry) : (s.putStat n e).RunAlike (t.putStat n e) :=
  ⟨congrArg (State.putStat n e) h.same, h.cmd, h.poll⟩

theorem handOver (h : s.RunAlike t) (e : Entry) : (s.handOver e).RunAlike (t.handOver e) :=
  ⟨congrArg (State.handOver e) h.same, h.cmd, h.poll⟩

theorem goIdle (h : s.RunAlike t) : s.goIdle.LatchAlike t.goIdle :=
  alike ⟨congrArg State.goIdle h.same, h.cmd, h.poll⟩ (fun hp => nomatch hp)

theorem offer (h : s.RunAlike t) (e : Entry) : (s.offer e).LatchAlike (t.offer e) :=
  alike ⟨congrArg (State.offer e) h.same, h.cmd, h.poll⟩ (fun hp => nomatch hp)

theorem issue1 (h : s.RunAlike t) (q : Xreq) : (s.issue .xfer1 q).LatchAlike (t.issue .xfer1 q) :=
  alike ⟨congrArg (State.issue .xfer1 q) h.same, h.cmd, h.poll⟩ (fun hp => nomatch hp)

theorem issue2 (h : s.RunAlike t) (q : Xreq) (hr : t.lat.rawLo = s.lat.rawLo) :
    (s.issue .xfer2 q).LatchAlike (t.issue .xfer2 q) :=
  alike ⟨congrArg (State.issue .xfer2 q) h.same, h.cmd, h.poll⟩ (fun _ => hr)

theorem beginRead1 (h : s.RunAlike t) (r : Byte) : (s.beginRead .xfer1 r).LatchAlike (t.beginRead .xfer1 r) := by
  unfold State.beginRead
  rw [h.same.addr7]
  exact h.issue1 _

/-- An answer that arrives goes to `RXBUF`, whose old value stays where the answer is `Fail`. -/
theorem receive (h : s.RunAlike t) (a : Xrsp) (rest : List Xrsp) : (s.receive a rest).RunAlike (t.receive a rest) :=
  ⟨congrArg (State.receive a rest) h.same, h.cmd, h.poll⟩

theorem decodeFinish (h : s.RunAlike t) (n : Index) (last : Bool) (v : Word) :
    (decodeFinish n last v s).LatchAlike (decodeFinish n last v t) := by
  unfold Machine.decodeFinish State.statUpdate
  rw [h.statAt, h.same.cfg]
  exact (h.putStat n _).offer _

theorem decodeAnswered1 (h : s.RunAlike t) (n : Index) (last : Bool) (a : Xrsp) :
    (decodeAnswered1 n last a s).LatchAlike (decodeAnswered1 n last a t) := by
  unfold Machine.decodeAnswered1
  cases replyWord a with
  | error e => exact h.offer _
  | ok lo =>
    simp only [h.same.cfg]
    split
    · unfold State.beginRead
      rw [(h.latchLo lo).same.addr7]
      exact (h.latchLo lo).issue2 _ rfl
    · exact (h.latchLo lo).decodeFinish _ _ _

theorem decodeAnswered2 (h : s.RunAlike t) (n : Index) (last : Bool) (a : Xrsp) (hr : t.lat.rawLo = s.lat.rawLo) :
    (decodeAnswered2 n last a s).LatchAlike (decodeAnswered2 n last a t) := by
  unfold Machine.decodeAnswered2
  cases replyWord a with
  | error e => exact h.offer _
  | ok hi =>
    simp only [hr]
    exact (h.latchHi hi).decodeFinish _ _ _

theorem rdwAnswered (h : s.RunAlike t) (r : Byte) (a : Xrsp) :
    (rdwAnswered r a s).LatchAlike (rdwAnswered r a t) := by
  unfold Machine.rdwAnswered
  cases replyWord a with
  | error e => exact h.offer _
  | ok v => exact (h.latchLo v).offer _

theorem rdregAnswered (h : s.RunAlike t) (n : Index) (a : Xrsp) :
    (rdregAnswered n a s).LatchAlike (rdregAnswered n a t) := by
  unfold Machine.rdregAnswered
  cases replyWord a with
  | error e => exact h.offer _
  | ok v => exact (h.latchLo v).offer _

theorem wrwAnswered (h : s.RunAlike t) (r : Byte) (a : Xrsp) :
    (wrwAnswered r a s).LatchAlike (wrwAnswered r a t) := by
  unfold Machine.wrwAnswered
  split <;> exact h.offer _

theorem answered1 (h : s.RunAlike t) (hp : s.phase = .xfer1) (a : Xrsp) :
    (answered1 a s).LatchAlike (answered1 a t) := by
  have hst : s.LatchAlike t := h.alike (fun h2 => by simp [hp] at h2)
  unfold Machine.answered1
  rw [h.cmd]
  split
  · exact h.rdwAnswered _ a
  · exact h.wrwAnswered _ a
  · split
    · exact h.rdregAnswered _ a
    · exact hst
  · split
    · exact h.decodeAnswered1 _ _ a
    · exact hst
  · next hd =>
    rw [h.poll hd]
    split
    · exact h.decodeAnswered1 _ _ a
    · exact hst
  · exact hst

theorem answered2 (h : s.RunAlike t) (hr : t.lat.rawLo = s.lat.rawLo) (a : Xrsp) :
    (answered2 a s).LatchAlike (answered2 a t) := by
  have hst : s.LatchAlike t := h.alike (fun _ => hr)
  unfold Machine.answered2
  rw [h.cmd]
  split
  · exact hst
  · exact hst
  · exact hst
  · split
    · exact h.decodeAnswered2 _ _ a hr
    · exact hst
  · next hd =>
    rw [h.poll hd]
    split
    · exact h.decodeAnswered2 _ _ a hr
    · exact hst
  · exact hst

theorem pollTaken (h : s.RunAlike t) (n : Index) : (pollTaken n s).LatchAlike (pollTaken n t) := by
  unfold Machine.pollTaken
  split
  · have hset (p : BitVec 6) : (s.setPoll p).RunAlike (t.setPoll p) :=
      ⟨congrArg (State.setPoll p) h.same, h.cmd, fun _ => rfl⟩
    exact (hset _).beginRead1 _
  · exact h.goIdle

theorem taken (h : s.RunAlike t) : (taken s).LatchAlike (taken t) := by
  unfold Machine.taken
  rw [h.cmd]
  split
  · exact h.goIdle
  · exact h.goIdle
  · exact h.goIdle
  · exact h.goIdle
  · next hd =>
    rw [h.poll hd]
    split
    · exact h.pollTaken _
    · exact h.goIdle
  · exact h.goIdle

end State.RunAlike

namespace State.LatchAlike

variable {s t : State}

/-- Alike states have like events: both the same one, or both none. -/
theorem advance (h : s.LatchAlike t) : Option.Rel State.LatchAlike (advance s) (advance t) := by
  unfold Machine.advance
  rw [h.same.phase, h.same.xrspIn, h.same.rsp, h.same.rspReady]
  split
  · exact .none
  · next hp =>
    split
    · exact .none
    · exact .some (((h.run (by simp [hp])).receive _ _).answered1 hp _)
  · next hp =>
    split
    · exact .none
    · exact .some (((h.run (by simp [hp])).receive _ _).answered2 (h.rawLo hp) _)
  · next hp =>
    split
    · exact .some ((h.run (by simp [hp])).handOver _).taken
    · exact .none
    · exact .none

theorem settle (h : s.LatchAlike t) : (settle s).LatchAlike (settle t) := by
  generalize hn : s.inputs = n
  induction n using Nat.strong_induction_on generalizing s t with
  | _ n ih =>
    have hrel := h.advance
    cases ha : Machine.advance s with
    | none =>
      cases hb : Machine.advance t with
      | none => rw [settle_of_blocked ha, settle_of_blocked hb]; exact h
      | some v => rw [ha, hb] at hrel; cases hrel
    | some u =>
      cases hb : Machine.advance t with
      | none => rw [ha, hb] at hrel; cases hrel
      | some v =>
        rw [ha, hb] at hrel
        obtain ⟨huv⟩ := hrel
        rw [settle_of_advance ha, settle_of_advance hb]
        exact ih _ (by have := advance_inputs ha; omega) huv rfl

theorem runBlock (h : s.LatchAlike t) : OutcomesAlike (runBlock s) (runBlock t) := by
  unfold Machine.runBlock
  rw [h.same.cfg]
  split
  · exact h.settle
  · exact rfl

theorem controlOk (h : s.LatchAlike t) : t.controlOk = s.controlOk := by
  unfold State.controlOk
  rw [h.same.phase, h.same.xreq, h.same.rsp]
  split
  · rfl
  · next hp => rw [(h.run (by simp [hp])).firstRequest]
  · next hp => rw [(h.run (by simp [hp])).secondRequest]
  · next hp => rw [(h.run (by simp [hp])).lastExpected]

end State.LatchAlike

/-- The start of a word does not depend on the latches that an earlier command left, nor on `POLL_IDX`. -/
theorem start_alike {s t : State} (h : s.SameButLatches t) (w : Word) : (start w s).LatchAlike (start w t) := by
  have hw : (s.latchWord w).SameButLatches (t.latchWord w) := congrArg (State.latchWord w) h
  have hrun (hd : decodeWord w ≠ .instr .pollall) : (s.latchWord w).RunAlike (t.latchWord w) :=
    ⟨hw, rfl, fun hp => absurd hp hd⟩
  unfold start
  split
  · next hd => exact (hrun (by simp [hd])).beginRead1 _
  · next hd =>
    unfold wrwStart State.beginWrite
    rw [hw.addr7]
    exact (hrun (by simp [hd])).issue1 _
  · next hd =>
    unfold rdregStart
    split
    · exact (hrun (by simp [hd])).offer _
    · exact (hrun (by simp [hd])).beginRead1 _
  · next hd =>
    unfold decodeCmdStart
    split
    · exact (hrun (by simp [hd])).offer _
    · exact (hrun (by simp [hd])).beginRead1 _
  · have hset : ((s.latchWord w).setPoll 0#6).RunAlike ((t.latchWord w).setPoll 0#6) :=
      ⟨congrArg (State.setPoll 0#6) hw, rfl, fun _ => rfl⟩
    exact hset.beginRead1 _
  · next hd => exact (hrun (by simp [hd])).offer _

theorem takeCommand_alike {s t : State} (h : s.LatchAlike t) : OutcomesAlike (takeCommand s) (takeCommand t) := by
  cases hx : s.cmdIn with
  | nil => rw [takeCommand_nil hx, takeCommand_nil (h.same.cmdIn.trans hx)]; exact h
  | cons w ws =>
    rw [takeCommand_cons hx, takeCommand_cons (h.same.cmdIn.trans hx)]
    have ha : (s.accept w ws).SameButLatches (t.accept w ws) := congrArg (State.accept w ws) h.same
    exact (start_alike ha w).runBlock

end Sys2Proof.Machine
end

section
namespace Sys2Proof.Proofs

open Sys2Proof Sys2Proof.Machine Sys2Proof.Claims

/-- Settles O48: reset, the acceptance of a word and every event of a run read no latch that may differ. -/
theorem latchesHaveNoEffectOutsideACommand : Obligations.LatchesHaveNoEffectOutsideACommand := by
  intro s t h
  have hreset := congrArg applyReset h.same
  unfold step
  rw [h.same.resetPin, h.controlOk, h.same.phase]
  split
  · rw [← hreset]; exact .refl (applyReset s)
  · split
    · split
      · exact takeCommand_alike h
      · exact h.runBlock
      · exact h.runBlock
      · exact h.runBlock
    · exact rfl

end Sys2Proof.Proofs
end

section
/-! SUPPORT. The big step (10_state.md R20): what each part of it answers, and that the small-step run of a command whose
answers are there and whose entries are taken goes through the same events to the same statistics. -/

namespace Sys2Proof.Machine

open Sys2Proof

theorem entriesOf_append (xs ys : List Event) : entriesOf (xs ++ ys) = entriesOf xs ++ entriesOf ys := by
  induction xs with
  | nil => rfl
  | cons x xs ih => cases x <;> simp [entriesOf, ih]

/-- The events of a read transaction of wire byte `w` with the answer `a` (41_framer.md R84). -/
def readEvents (addr7 : BitVec 7) (w : Byte) (a : Xrsp) : List Event := [.request (readRequest addr7 w), .answer a]

theorem entriesOf_readEvents (addr7 : BitVec 7) (w : Byte) (a : Xrsp) : entriesOf (readEvents addr7 w a) = [] := rfl

theorem bigMemRead_cons (addr7 : BitVec 7) (w : Byte) (a : Xrsp) (rest : List Xrsp) :
    bigMemRead addr7 w (a :: rest) = some (replyWord a, readEvents addr7 w a, rest) := rfl

/-- A raw read that has an answer (41_framer.md R85, 42_decode.md R90). -/
theorem bigRawRead_eq_some {addr7 : BitVec 7} {st : Stat} {idx : BitVec 6} {w : Byte} {o : List Xrsp} {r : BigResult}
    (h : bigRawRead addr7 st idx w o = some r) : ∃ a rest, o = a :: rest ∧
      r = ⟨st, readEvents addr7 w a ++ [.entry (readEntry idx w (replyWord a))], rest⟩ := by
  cases o with
  | nil => cases h
  | cons a rest => exact ⟨a, rest, rfl, (Option.some.inj h).symm⟩

/-- A write that has an answer (41_framer.md R87). -/
theorem bigWrite_eq_some {addr7 : BitVec 7} {st : Stat} {w : Byte} {v : Half} {o : List Xrsp} {r : BigResult}
    (h : bigWrite addr7 st w v o = some r) : ∃ a rest, o = a :: rest ∧
      r = ⟨st, [.request (writeRequest addr7 w v), .answer a] ++ [.entry (writeEntry w a)], rest⟩ := by
  cases o with
  | nil => cases h
  | cons a rest => exact ⟨a, rest, rfl, (Option.some.inj h).symm⟩

/-- The four ways a decode ends whose answers are there (42_decode.md R97): the first read fails; it is the only one; the
second read fails; both succeed. -/
theorem bigDecodeOne_cases {c : Config} {addr7 : BitVec 7} {st : Stat} {n : Index} {last : Bool} {o : List Xrsp}
    {r : BigResult} (h : bigDecodeOne c addr7 st n last o = some r) : ∃ a rest, o = a :: rest ∧
    ((∃ e, replyWord a = .error e ∧ r = ⟨st, readEvents addr7 (wire n.val) a ++
        [.entry (emptyEntry e.status (idxBits n) (wire n.val) last)], rest⟩) ∨
     (∃ lo, replyWord a = .ok lo ∧ (c.lut n).pair = false ∧
        r = bigFinish c st n last (lo.setWidth 32) (readEvents addr7 (wire n.val) a) rest) ∨
     (∃ lo a2 rest2, replyWord a = .ok lo ∧ (c.lut n).pair = true ∧ rest = a2 :: rest2 ∧
       ((∃ e, replyWord a2 = .error e ∧
          r = ⟨st, readEvents addr7 (wire n.val) a ++ readEvents addr7 (wire (n.val + 1)) a2 ++
            [.entry (emptyEntry e.status (idxBits n) (wire (n.val + 1)) last)], rest2⟩) ∨
        (∃ hi, replyWord a2 = .ok hi ∧ r = bigFinish c st n last (pairCombine lo hi)
          (readEvents addr7 (wire n.val) a ++ readEvents addr7 (wire (n.val + 1)) a2) rest2)))) := by
  cases o with
  | nil => cases h
  | cons a rest =>
    refine ⟨a, rest, rfl, ?_⟩
    unfold bigDecodeOne at h
    cases hw : replyWord a with
    | error e =>
      rw [bigMemRead_cons, hw] at h
      exact .inl ⟨e, rfl, (Option.some.inj h).symm⟩
    | ok lo =>
      simp only [bigMemRead_cons, hw] at h
      cases hp : (c.lut n).pair with
      | false => exact .inr (.inl ⟨lo, rfl, rfl, by simpa [hp] using h.symm⟩)
      | true =>
        rw [if_pos hp] at h
        cases rest with
        | nil => cases h
        | cons a2 rest2 =>
          refine .inr (.inr ⟨lo, a2, rest2, rfl, rfl, rfl, ?_⟩)
          cases hw2 : replyWord a2 with
          | error e =>
            rw [bigMemRead_cons, hw2] at h
            exact .inl ⟨e, rfl, (Option.some.inj h).symm⟩
          | ok hi =>
            rw [bigMemRead_cons, hw2] at h
            exact .inr ⟨hi, rfl, (Option.some.inj h).symm⟩

/-- A decode reports exactly one entry. -/
theorem bigDecodeOne_entry {c : Config} {addr7 : BitVec 7} {st : Stat} {n : Index} {last : Bool} {o : List Xrsp}
    {r : BigResult} (h : bigDecodeOne c addr7 st n last o = some r) : ∃ e, entriesOf r.events = [e] := by
  obtain ⟨a, rest, _, ⟨e, _, rfl⟩ | ⟨lo, _, _, rfl⟩ | ⟨lo, a2, rest2, _, _, _, ⟨e, _, rfl⟩ | ⟨hi, _, rfl⟩⟩⟩ :=
    bigDecodeOne_cases h <;> exact ⟨_, rfl⟩

/-- `s` when the requests and answers `evs` of a command have been seen and `rest` are the answers left. -/
def State.heard (evs : List Event) (rest : List Xrsp) (ph : Phase) (l : Latches) (st : Stat) (s : State) : State :=
  { s with stat := st, phase := ph, lat := l, xreq := none, xrspIn := rest, trace := s.trace ++ evs }

/-- `s` when the events of `r` have happened and the last of them, the taking of an entry, has not been acted on yet. -/
def State.ran (r : BigResult) (l : Latches) (s : State) : State :=
  { s with
    stat := r.stat
    phase := .respond
    lat := l
    xreq := none
    rsp := none
    xrspIn := r.rest
    rspReady := s.rspReady - (entriesOf r.events).length
    trace := s.trace ++ r.events }

/-- A first request whose answer is there. -/
theorem settle_first_request {s : State} {a : Xrsp} {rest : List Xrsp} (hx : s.xrspIn = a :: rest) (q : Xreq) :
    ∃ l, l.cmd = s.lat.cmd ∧
      settle (s.issue .xfer1 q) = settle (answered1 a (s.heard [.request q, .answer a] rest .xfer1 l s.stat)) := by
  refine ⟨((s.issue .xfer1 q).receive a rest).lat, rfl, ?_⟩
  have e : (s.issue .xfer1 q).receive a rest =
      s.heard [.request q, .answer a] rest .xfer1 ((s.issue .xfer1 q).receive a rest).lat s.stat := by
    simp only [State.heard, State.receive, State.issue, List.append_assoc]
    rfl
  rw [settle_xfer1 (s := s.issue .xfer1 q) rfl hx, ← e]

theorem settle_first_read {s : State} {a : Xrsp} {rest : List Xrsp} (hx : s.xrspIn = a :: rest) (w : Byte) :
    ∃ l, l.cmd = s.lat.cmd ∧
      settle (s.beginRead .xfer1 w) = settle (answered1 a (s.heard (readEvents s.addr7 w a) rest .xfer1 l s.stat)) :=
  settle_first_request hx (readRequest s.addr7 w)

/-- A second read whose answer is there; `RAW_LO` keeps the first word meanwhile (42_decode.md R97). -/
theorem settle_second_read (s : State) (evs : List Event) (a : Xrsp) (rest : List Xrsp) (ph : Phase) (l : Latches)
    (st : Stat) (lo : Half) (w : Byte) : ∃ l', l'.cmd = l.cmd ∧ l'.rawLo = lo ∧
      settle (((s.heard evs (a :: rest) ph l st).latchLo lo).beginRead .xfer2 w) =
        settle (answered2 a (s.heard (evs ++ readEvents s.addr7 w a) rest .xfer2 l' st)) := by
  refine ⟨((((s.heard evs (a :: rest) ph l st).latchLo lo).beginRead .xfer2 w).receive a rest).lat, rfl, rfl, ?_⟩
  have e : (((s.heard evs (a :: rest) ph l st).latchLo lo).beginRead .xfer2 w).receive a rest =
      s.heard (evs ++ readEvents s.addr7 w a) rest .xfer2
        ((((s.heard evs (a :: rest) ph l st).latchLo lo).beginRead .xfer2 w).receive a rest).lat st := by
    simp only [State.heard, State.receive, State.beginRead, State.issue, State.latchLo, List.append_assoc]
    rfl
  rw [settle_xfer2 (s := ((s.heard evs (a :: rest) ph l st).latchLo lo).beginRead .xfer2 w) rfl rfl, ← e]

/-- An entry that is offered after the transactions `evs` and taken. -/
theorem settle_heard_offer {s : State} {k : Nat} (hk : s.rspReady = k + 1) {evs : List Event} (he : entriesOf evs = [])
    (rest : List Xrsp) (ph : Phase) (l : Latches) (st : Stat) (e : Entry) : ∃ l', l'.cmd = l.cmd ∧
      settle ((s.heard evs rest ph l st).offer e) = settle (taken (s.ran ⟨st, evs ++ [.entry e], rest⟩ l')) := by
  refine ⟨((s.heard evs rest ph l st).offer e).lat, rfl, ?_⟩
  rw [settle_respond (s := (s.heard evs rest ph l st).offer e) rfl rfl hk]
  simp only [State.ran, State.offer, State.handOver, State.heard, List.append_assoc, entriesOf_append, he]
  rfl

/-- The first answer of a decode in progress. -/
theorem answered1_heard {s : State} {n : Index} {l : Latches} (hn : decodeIndex s = some n) (hl : l.cmd = s.lat.cmd)
    (evs : List Event) (rest : List Xrsp) (ph : Phase) (st : Stat) (a : Xrsp) :
    answered1 a (s.heard evs rest ph l st) =
      decodeAnswered1 n (lastExpected s) a (s.heard evs rest ph l st) := by
  have hlast : lastExpected (s.heard evs rest ph l st) = lastExpected s := lastExpected_congr hl rfl
  have hdec : decodeIndex (s.heard evs rest ph l st) = decodeIndex s := decodeIndex_congr hl rfl
  rw [← hlast]
  exact answered1_of_decodeIndex (hdec.trans hn) a

/-- The second answer of a paired decode in progress. -/
theorem answered2_heard {s : State} {n : Index} {l : Latches} (hn : decodeIndex s = some n) (hl : l.cmd = s.lat.cmd)
    (evs : List Event) (rest : List Xrsp) (ph : Phase) (st : Stat) (a : Xrsp) :
    answered2 a (s.heard evs rest ph l st) =
      decodeAnswered2 n (lastExpected s) a (s.heard evs rest ph l st) := by
  have hlast : lastExpected (s.heard evs rest ph l st) = lastExpected s := lastExpected_congr hl rfl
  have hdec : decodeIndex (s.heard evs rest ph l st) = decodeIndex s := decodeIndex_congr hl rfl
  rw [← hlast]
  exact answered2_of_decodeIndex (hdec.trans hn) a

/-- How the first answer of a decode is acted on, by the reply and by `PAIR` (42_decode.md R97). -/
theorem decodeAnswered1_error {a : Xrsp} {e : BusError} (hw : replyWord a = .error e) (n : Index) (last : Bool) (s : State) :
    decodeAnswered1 n last a s = s.offer (emptyEntry e.status (idxBits n) (wire n.val) last) := by
  unfold decodeAnswered1; rw [hw]; rfl

theorem decodeAnswered1_single {a : Xrsp} {lo : Half} (hw : replyWord a = .ok lo) {n : Index} {s : State}
    (hp : (s.cfg.lut n).pair = false) (last : Bool) :
    decodeAnswered1 n last a s = decodeFinish n last (lo.setWidth 32) (s.latchLo lo) := by
  simp [decodeAnswered1, hw, hp]

theorem decodeAnswered1_pair {a : Xrsp} {lo : Half} (hw : replyWord a = .ok lo) {n : Index} {s : State}
    (hp : (s.cfg.lut n).pair = true) (last : Bool) :
    decodeAnswered1 n last a s = (s.latchLo lo).beginRead .xfer2 (wire (n.val + 1)) := by
  simp [decodeAnswered1, hw, hp]

theorem decodeAnswered2_error {a : Xrsp} {e : BusError} (hw : replyWord a = .error e) (n : Index) (last : Bool) (s : State) :
    decodeAnswered2 n last a s = s.offer (emptyEntry e.status (idxBits n) (wire (n.val + 1)) last) := by
  unfold decodeAnswered2; rw [hw]; rfl

theorem decodeAnswered2_ok {a : Xrsp} {hi : Half} (hw : replyWord a = .ok hi) (n : Index) (last : Bool) (s : State) :
    decodeAnswered2 n last a s = decodeFinish n last (pairCombine s.lat.rawLo hi) (s.latchHi hi) := by
  unfold decodeAnswered2; rw [hw]

/-- The end of a decode whose entry is taken (42_decode.md R97). -/
theorem settle_decodeFinish {s : State} {k : Nat} (hk : s.rspReady = k + 1) {evs : List Event} (he : entriesOf evs = [])
    (rest : List Xrsp) (ph : Phase) (l : Latches) (n : Index) (last : Bool) (v : Word) : ∃ l', l'.cmd = l.cmd ∧
      settle (decodeFinish n last v (s.heard evs rest ph l s.stat)) =
        settle (taken (s.ran (bigFinish s.cfg s.stat n last v evs rest) l')) :=
  settle_heard_offer hk he rest ph l (s.stat.set n.val ((s.stat.get n).update v) n.isLt) _

/-- The run of a decode whose answers are there and whose entry is taken, up to that taking, is its big step. -/
theorem settle_decodeStart {s : State} {n : Index} {r : BigResult} {k : Nat} (hn : decodeIndex s = some n)
    (hk : s.rspReady = k + 1) (h : bigDecodeOne s.cfg s.addr7 s.stat n (lastExpected s) s.xrspIn = some r) :
    ∃ l, l.cmd = s.lat.cmd ∧ settle (decodeStart n s) = settle (taken (s.ran r l)) := by
  obtain ⟨a, rest, hx, hr⟩ := bigDecodeOne_cases h
  obtain ⟨l, hl, hs⟩ := settle_first_read hx (wire n.val)
  rw [decodeStart, hs, answered1_heard hn hl]
  obtain ⟨e, hw, rfl⟩ | ⟨lo, hw, hp, rfl⟩ | ⟨lo, a2, rest2, hw, hp, rfl, hr⟩ := hr
  · rw [decodeAnswered1_error hw, ← hl]
    exact settle_heard_offer hk (entriesOf_readEvents _ _ _) rest .xfer1 l s.stat _
  · rw [decodeAnswered1_single (s := State.heard _ _ _ _ _ s) hw hp, ← hl]
    exact settle_decodeFinish hk (entriesOf_readEvents _ _ _) rest .xfer1 { l with rawLo := lo } _ _ _
  · obtain ⟨l2, hl2, rfl, hs2⟩ := settle_second_read s (readEvents s.addr7 (wire n.val) a) a2 rest2 .xfer1 l s.stat lo
      (wire (n.val + 1))
    have he : entriesOf (readEvents s.addr7 (wire n.val) a ++ readEvents s.addr7 (wire (n.val + 1)) a2) = [] := rfl
    have hl2' : l2.cmd = s.lat.cmd := hl2.trans hl
    rw [decodeAnswered1_pair (s := State.heard _ _ _ _ _ s) hw hp, hs2, answered2_heard hn hl2', ← hl2']
    obtain ⟨e, hw2, rfl⟩ | ⟨hi, hw2, rfl⟩ := hr
    · rw [decodeAnswered2_error hw2]
      exact settle_heard_offer hk he rest2 .xfer2 l2 s.stat _
    · rw [decodeAnswered2_ok hw2]
      exact settle_decodeFinish hk he rest2 .xfer2 { l2 with rawHi := hi } _ _ _

end Sys2Proof.Machine
end

section
/-! SUPPORT. The run of each command whose answers are there and whose entries are taken, from its start to IDLE, against its
big step: the raw commands, a refused index, and the loop of POLLALL (43_minmax_poll.md R108). -/

namespace Sys2Proof.Machine

open Sys2Proof

/-- RDW and RDREG when the answer arrives: one form for both (41_framer.md R85, 42_decode.md R90). -/
def rawAnswered (idx : BitVec 6) (w : Byte) (a : Xrsp) (s : State) : State :=
  match replyWord a with
  | .ok v => (s.latchLo v).offer (rawEntry idx w v)
  | .error e => s.raiseError e idx w true

theorem answered1_rdw {s : State} {w : Byte} (hd : decodeWord s.lat.cmd = .instr (.rdw w)) (a : Xrsp) :
    answered1 a s = rawAnswered 0#6 w a s := by
  unfold answered1
  rw [hd]
  rfl

theorem answered1_rdreg {s : State} {b : Byte} {n : Index} (hd : decodeWord s.lat.cmd = .instr (.rdreg b))
    (hn : indexOfByte b = some n) (a : Xrsp) : answered1 a s = rawAnswered (idxBits n) (wire n.val) a s := by
  unfold answered1
  simp only [hd, hn]
  rfl

theorem answered1_wrw {s : State} {w : Byte} {v : Half} (hd : decodeWord s.lat.cmd = .instr (.wrw w v)) (a : Xrsp) :
    answered1 a s = s.offer (writeEntry w a) := by
  unfold answered1 writeEntry
  simp only [hd, wrwAnswered]
  split <;> rfl

/-- The run of RDW or RDREG up to the taking of its entry. -/
theorem settle_rawRead {s : State} {idx : BitVec 6} {w : Byte} {r : BigResult} {k : Nat} (hk : s.rspReady = k + 1)
    (hans : ∀ (t : State) (a : Xrsp), t.lat.cmd = s.lat.cmd → answered1 a t = rawAnswered idx w a t)
    (h : bigRawRead s.addr7 s.stat idx w s.xrspIn = some r) :
    ∃ l, l.cmd = s.lat.cmd ∧ settle (s.beginRead .xfer1 w) = settle (taken (s.ran r l)) := by
  obtain ⟨a, rest, hx, rfl⟩ := bigRawRead_eq_some h
  obtain ⟨l, hl, hs⟩ := settle_first_read hx w
  rw [hs, hans _ _ hl, rawAnswered, ← hl]
  cases replyWord a with
  | ok v => exact settle_heard_offer hk (entriesOf_readEvents _ _ _) rest .xfer1 { l with rawLo := v } s.stat _
  | error e => exact settle_heard_offer hk (entriesOf_readEvents _ _ _) rest .xfer1 l s.stat _

/-- The run of WRW up to the taking of its entry. -/
theorem settle_wrwStart {s : State} {w : Byte} {v : Half} {r : BigResult} {k : Nat} (hk : s.rspReady = k + 1)
    (hd : decodeWord s.lat.cmd = .instr (.wrw w v)) (h : bigWrite s.addr7 s.stat w v s.xrspIn = some r) :
    ∃ l, l.cmd = s.lat.cmd ∧ settle (wrwStart w v s) = settle (taken (s.ran r l)) := by
  obtain ⟨a, rest, hx, rfl⟩ := bigWrite_eq_some h
  obtain ⟨l, hl, hs⟩ := settle_first_request hx (writeRequest s.addr7 w v)
  have hd' : decodeWord l.cmd = .instr (.wrw w v) := by rw [hl]; exact hd
  change settle (wrwStart w v s) = _ at hs
  rw [hs, answered1_wrw (s := State.heard _ _ _ _ _ s) hd', ← hl]
  exact settle_heard_offer hk rfl rest .xfer1 l s.stat _

/-- The run of a refused index up to the taking of its entry (60_exceptions.md R118). -/
theorem settle_refuseCommand {s : State} {k : Nat} (hk : s.rspReady = k + 1) (hx : s.xreq = none) (st : Status) (b : Byte) :
    ∃ l, l.cmd = s.lat.cmd ∧ settle (s.refuseCommand st b) =
      settle (taken (s.ran ⟨s.stat, [.entry (emptyEntry st 0#6 b true)], s.xrspIn⟩ l)) := by
  refine ⟨(s.refuseCommand st b).lat, rfl, ?_⟩
  rw [settle_respond (s := s.refuseCommand st b) rfl rfl hk]
  simp only [State.ran, State.refuseCommand, State.offer, State.handOver, hx]
  rfl

/-- When the entry of a command that is no POLLALL has been taken, the command is over (10_state.md R17). -/
theorem settle_taken_of_not_poll {s : State} (hd : decodeWord s.lat.cmd ≠ .instr .pollall) :
    settle (taken s) = s.goIdle := by
  obtain ⟨hp, _⟩ | ⟨_, ht⟩ := taken_cases s
  · exact absurd hp hd
  · rw [ht]; exact settle_idle rfl

/-- The poll of a list of indices that starts with `n`, one decode after the other. -/
theorem bigPoll_cons {c : Config} {addr7 : BitVec 7} {n : Index} {ns : List Index} {st : Stat} {o : List Xrsp}
    {r : BigResult} (h : bigPoll c addr7 (n :: ns) st o = some r) : ∃ r1 r2,
      bigDecodeOne c addr7 st n (pollLast n) o = some r1 ∧ bigPoll c addr7 ns r1.stat r1.rest = some r2 ∧
      r = ⟨r2.stat, r1.events ++ r2.events, r2.rest⟩ := by
  unfold bigPoll at h
  split at h
  · cases h
  · next r1 h1 =>
    split at h
    · cases h
    · next r2 h2 => exact ⟨r1, r2, h1, h2, (Option.some.inj h).symm⟩

/-- Two runs one after the other are one run. -/
theorem ran_setPoll_ran (s : State) (r1 r2 : BigResult) (l1 l2 : Latches) (p : BitVec 6) :
    ((s.ran r1 l1).setPoll p).ran r2 l2 = (s.ran ⟨r2.stat, r1.events ++ r2.events, r2.rest⟩ l2).setPoll p := by
  simp only [State.ran, State.setPoll, entriesOf_append, List.length_append, List.append_assoc, Nat.sub_sub]

/-- One round of a poll: the decode of index `n`, up to the taking of its entry. -/
theorem settle_poll_round {s : State} {n : Index} {r : BigResult} {k : Nat} (hd : decodeWord s.lat.cmd = .instr .pollall)
    (hp : s.pollIdx = idxBits n) (hk : s.rspReady = k + 1)
    (h : bigDecodeOne s.cfg s.addr7 s.stat n (pollLast n) s.xrspIn = some r) :
    ∃ l, l.cmd = s.lat.cmd ∧ settle (decodeStart n s) = settle (pollTaken n (s.ran r l)) := by
  obtain ⟨l, hl, hs⟩ := settle_decodeStart (decodeIndex_of_poll hd hp) hk (by rw [lastExpected_of_poll hd hp]; exact h)
  have hd' : decodeWord (s.ran r l).lat.cmd = .instr .pollall := by rw [← hd]; exact congrArg decodeWord hl
  exact ⟨l, hl, by rw [hs, taken_of_poll hd' hp]⟩

theorem pollTaken_last {n : Index} (h : nreg ≤ n.val + 1) (s : State) : pollTaken n s = s.goIdle := by
  unfold pollTaken
  rw [dif_neg (by omega)]

theorem pollTaken_next {n m : Index} (h : m.val = n.val + 1) (s : State) :
    pollTaken n s = decodeStart m (s.setPoll (idxBits m)) := by
  obtain ⟨m, hm⟩ := m
  obtain rfl : m = n.val + 1 := h
  unfold pollTaken
  rw [dif_pos hm]

/-- The index after the first `i` of all, where there is one. -/
theorem drop_finRange_eq_cons {i : Nat} {m : Index} {ns : List Index} (h : m :: ns = (List.finRange nreg).drop i) :
    m.val = i ∧ ns = (List.finRange nreg).drop (i + 1) := by
  have hi : i < (List.finRange nreg).length := by
    by_contra hge
    rw [List.drop_eq_nil_of_le (by omega)] at h
    cases h
  rw [List.drop_eq_getElem_cons hi, List.getElem_finRange] at h
  injection h with hm hns
  exact ⟨by rw [hm]; rfl, hns⟩

/-- The loop of POLLALL from index `n` on, the indices after it being `ns`, is the big step's loop (43_minmax_poll.md R108). -/
theorem settle_poll {ns : List Index} : ∀ {n : Index} {s : State} {r : BigResult},
    ns = (List.finRange nreg).drop (n.val + 1) → decodeWord s.lat.cmd = .instr .pollall → s.pollIdx = idxBits n →
    bigPoll s.cfg s.addr7 (n :: ns) s.stat s.xrspIn = some r → (entriesOf r.events).length ≤ s.rspReady →
    ∃ l p, settle (decodeStart n s) = ((s.ran r l).setPoll p).goIdle := by
  induction ns with
  | nil =>
    intro n s r hns hd hp h hk
    obtain ⟨r1, r2, h1, h2, rfl⟩ := bigPoll_cons h
    obtain rfl : (⟨r1.stat, [], r1.rest⟩ : BigResult) = r2 := Option.some.inj h2
    obtain ⟨e, he⟩ := bigDecodeOne_entry h1
    simp only [List.append_nil, he, List.length_singleton] at hk ⊢
    obtain ⟨l, _, hs⟩ := settle_poll_round hd hp (Nat.succ_pred_eq_of_pos hk).symm h1
    have hn : nreg ≤ n.val + 1 := by simpa using List.drop_eq_nil_iff.1 hns.symm
    refine ⟨l, s.pollIdx, ?_⟩
    rw [hs, pollTaken_last hn]
    exact settle_idle rfl
  | cons m ns ih =>
    intro n s r hns hd hp h hk
    obtain ⟨r1, r2, h1, h2, rfl⟩ := bigPoll_cons h
    obtain ⟨e, he⟩ := bigDecodeOne_entry h1
    have hlen : (entriesOf r2.events).length + 1 ≤ s.rspReady := by simpa [entriesOf_append, he] using hk
    obtain ⟨hm, hns'⟩ := drop_finRange_eq_cons hns
    obtain ⟨l, hl, hs⟩ := settle_poll_round hd hp (Nat.succ_pred_eq_of_pos (by omega)).symm h1
    have hd' : decodeWord l.cmd = .instr .pollall := by rw [hl]; exact hd
    have hk2 : (entriesOf r2.events).length ≤ ((s.ran r1 l).setPoll (idxBits m)).rspReady := by
      have : ((s.ran r1 l).setPoll (idxBits m)).rspReady = s.rspReady - 1 := by simp [State.ran, he]
      omega
    obtain ⟨l2, p2, hs2⟩ := ih (s := (s.ran r1 l).setPoll (idxBits m)) (hm ▸ hns') hd' rfl h2 hk2
    refine ⟨l2, p2, ?_⟩
    rw [hs, pollTaken_next hm, hs2, ran_setPoll_ran]
    rfl

theorem bigRawRead_entry {addr7 : BitVec 7} {st : Stat} {idx : BitVec 6} {w : Byte} {o : List Xrsp} {r : BigResult}
    (h : bigRawRead addr7 st idx w o = some r) : ∃ e, entriesOf r.events = [e] := by
  obtain ⟨a, rest, _, rfl⟩ := bigRawRead_eq_some h
  exact ⟨_, rfl⟩

/-- Every command but POLLALL reports exactly one entry. -/
theorem bigStep_entry {c : Config} {addr7 : BitVec 7} {st : Stat} {i : Instr} {o : List Xrsp} {r : BigResult}
    (hi : i ≠ .pollall) (h : bigStep c addr7 st i o = some r) : ∃ e, entriesOf r.events = [e] := by
  unfold bigStep at h
  split at h
  · exact bigRawRead_entry h
  · obtain ⟨a, rest, _, rfl⟩ := bigWrite_eq_some h
    exact ⟨_, rfl⟩
  · split at h
    · cases h; exact ⟨_, rfl⟩
    · exact bigRawRead_entry h
  · split at h
    · cases h; exact ⟨_, rfl⟩
    · exact bigDecodeOne_entry h
  · exact absurd rfl hi

/-- A command that is no POLLALL, up to the taking of its one entry, is its big step. -/
theorem settle_start_single {i : Instr} {s : State} {r : BigResult} {k : Nat} (hi : i ≠ .pollall) (hx : s.xreq = none)
    (hk : s.rspReady = k + 1) (h : bigStep s.cfg s.addr7 s.stat i s.xrspIn = some r) :
    ∃ l, l.cmd = encodeWord i ∧ settle (start (encodeWord i) s) = settle (taken (s.ran r l)) := by
  have hd : decodeWord (s.latchCommand i).lat.cmd = .instr i := decodeWord_encodeWord i
  unfold start
  rw [decodeWord_encodeWord]
  cases i with
  | rdw w =>
    refine settle_rawRead (s := s.latchCommand (.rdw w)) hk (fun t a ht => ?_) h
    exact answered1_rdw (by rw [ht]; exact hd) a
  | wrw w v => exact settle_wrwStart (s := s.latchCommand (.wrw w v)) hk hd h
  | rdreg b =>
    unfold rdregStart
    unfold bigStep at h
    cases hn : indexOfByte b with
    | none =>
      simp only [hn] at h ⊢
      cases h
      exact settle_refuseCommand (s := s.latchCommand (.rdreg b)) hk hx _ _
    | some n =>
      simp only [hn] at h ⊢
      refine settle_rawRead (s := s.latchCommand (.rdreg b)) hk (fun t a ht => ?_) h
      exact answered1_rdreg (by rw [ht]; exact hd) hn a
  | decode b =>
    unfold decodeCmdStart
    unfold bigStep at h
    cases hn : indexOfByte b with
    | none =>
      simp only [hn] at h ⊢
      cases h
      exact settle_refuseCommand (s := s.latchCommand (.decode b)) hk hx _ _
    | some n =>
      simp only [hn] at h ⊢
      have hdec : decodeIndex (s.latchCommand (.decode b)) = some n := by simp only [decodeIndex, hd, hn]
      have hlast : lastExpected (s.latchCommand (.decode b)) = true := lastExpected_of_not_poll (by simp [hd])
      exact settle_decodeStart (s := s.latchCommand (.decode b)) hdec hk (by rw [hlast]; exact h)
  | pollall => exact absurd rfl hi

/-- From its start, a command whose big step is defined and whose entries are taken runs to IDLE as its big step says. -/
theorem settle_start {i : Instr} {s : State} {r : BigResult} (hx : s.xreq = none)
    (h : bigStep s.cfg s.addr7 s.stat i s.xrspIn = some r) (hk : (entriesOf r.events).length ≤ s.rspReady) :
    ∃ l p, (i ≠ .pollall → p = s.pollIdx) ∧ settle (start (encodeWord i) s) = ((s.ran r l).setPoll p).goIdle := by
  by_cases hi : i = .pollall
  · subst hi
    have hd : decodeWord (encodeWord .pollall) = .instr .pollall := decodeWord_encodeWord .pollall
    obtain ⟨l, p, hs⟩ := settle_poll (n := 0) (s := (s.latchCommand .pollall).setPoll 0#6) (r := r) rfl hd rfl h hk
    refine ⟨l, p, fun hne => absurd rfl hne, ?_⟩
    unfold start
    rw [hd]
    exact hs
  · obtain ⟨e, he⟩ := bigStep_entry hi h
    rw [he] at hk
    obtain ⟨l, hl, hs⟩ := settle_start_single hi hx (Nat.succ_pred_eq_of_pos hk).symm h
    have hd : decodeWord (s.ran r l).lat.cmd ≠ .instr .pollall := by
      rw [show (s.ran r l).lat.cmd = encodeWord i from hl, decodeWord_encodeWord]
      simpa using hi
    exact ⟨l, s.pollIdx, fun _ => rfl, by rw [hs, settle_taken_of_not_poll hd]; rfl⟩

end Sys2Proof.Machine
end

section
namespace Sys2Proof.Proofs

open Sys2Proof Sys2Proof.Machine Sys2Proof.Claims

/-- Settles O35: the run from the command's start is its big step, and an IDLE block has nothing outstanding or on offer. -/
theorem everyCommandIsItsBigStep : Obligations.EveryCommandIsItsBigStep := by
  intro i s r ha hp hc h hk
  obtain ⟨hx, hr⟩ := (controlOk_idle hp).1 hc
  obtain ⟨l, p, hpi, hs⟩ := settle_start hx h hk
  refine ⟨l, p, hpi, ?_⟩
  rw [exec_eq_runBlock, runBlock_next (by rw [(start_keeps _ s).cfg]; exact ha), hs]
  simp only [State.ran, State.setPoll, State.goIdle, hp, hx, hr]

end Sys2Proof.Proofs
end

section
/-! SUPPORT. The requests of a run (20_memory.md R31, R34): each event issues at most the request that the command in `CMD` then
waits on, and for RDREG, DECODE and POLLALL under an admitted catalog that is the read of some index. -/

namespace Sys2Proof.Machine

open Sys2Proof

@[simp] theorem mem_requestsOf {q : Xreq} {evs : List Event} : q ∈ requestsOf evs ↔ Event.request q ∈ evs := by
  induction evs with
  | nil => simp [requestsOf]
  | cons ev evs ih => cases ev <;> simp [requestsOf, ih]

/-- Every request that a run adds to the port record satisfies `P`. -/
def AddsRequests (P : Xreq → Prop) (s t : State) : Prop :=
  ∃ evs, t.trace = s.trace ++ evs ∧ ∀ q, Event.request q ∈ evs → P q

section
variable {P Q : Xreq → Prop} {s t u : State}

theorem AddsRequests.trans (h : AddsRequests P s t) (k : AddsRequests P t u) : AddsRequests P s u := by
  obtain ⟨xs, hx, px⟩ := h
  obtain ⟨ys, hy, py⟩ := k
  exact ⟨xs ++ ys, by rw [hy, hx, List.append_assoc], fun q hq => (List.mem_append.1 hq).elim (px q) (py q)⟩

theorem AddsRequests.mono (h : AddsRequests P s t) (hPQ : ∀ q, P q → Q q) : AddsRequests Q s t := by
  obtain ⟨evs, he, hp⟩ := h
  exact ⟨evs, he, fun q hq => hPQ q (hp q hq)⟩

theorem AddsRequests.of_trace_eq (h : t.trace = s.trace) : AddsRequests P s t := ⟨[], by simp [h], by simp⟩

theorem AddsRequests.of_issues {ph : Phase} {q : Xreq} (h : s.Issues t ph q) (hq : P q) : AddsRequests P s t :=
  ⟨[.request q], h.trace, by simpa using hq⟩

theorem addsRequests_issue {ph : Phase} {q : Xreq} (hq : P q) : AddsRequests P s (s.issue ph q) :=
  .of_issues (s.issue_issues ph q) hq

theorem addsRequests_receive (a : Xrsp) (rest : List Xrsp) : AddsRequests P s (s.receive a rest) :=
  ⟨[.answer a], rfl, by simp⟩

theorem addsRequests_handOver (e : Entry) : AddsRequests P s (s.handOver e) := ⟨[.entry e], rfl, by simp⟩

end

/-- `q` is the request of one of the two transactions of the command in `CMD`. -/
def State.MayRequest (s : State) (q : Xreq) : Prop := firstRequest s = some q ∨ secondRequest s = some q

theorem advance_addsRequests {s t : State} (h : advance s = some t) : AddsRequests t.MayRequest s t := by
  obtain ⟨a, rest, _, _, rfl⟩ | ⟨a, rest, _, _, rfl⟩ | ⟨e, k, _, _, _, rfl⟩ := advance_cases h
  · refine (addsRequests_receive a rest).trans ?_
    obtain ⟨e, ho, _⟩ | ⟨q, hq, hi, hp⟩ | ⟨_, hs⟩ := answered1_effect a (s.receive a rest)
    · exact .of_trace_eq ho.trace
    · exact .of_issues hi (.inr ((secondRequest_congr hi.cmd hp hi.addr7 hi.cfg).trans hq))
    · exact .of_trace_eq (by rw [hs])
  · refine (addsRequests_receive a rest).trans ?_
    obtain ⟨e, ho, _⟩ | ⟨_, hs⟩ := answered2_effect a (s.receive a rest)
    · exact .of_trace_eq ho.trace
    · exact .of_trace_eq (by rw [hs])
  · refine (addsRequests_handOver e).trans ?_
    obtain ⟨q, hq, hi, _⟩ | ⟨_, hs⟩ := taken_effect (s.handOver e)
    · exact .of_issues hi (.inl hq)
    · exact .of_trace_eq (by rw [hs]; rfl)

theorem start_addsRequests (w : Word) (s : State) : AddsRequests (start w s).MayRequest s (start w s) := by
  obtain ⟨_, st, b, e⟩ | ⟨_, q, hq, e⟩ | ⟨hd, e⟩ := start_cases w s <;> rw [e]
  · exact .of_trace_eq rfl
  · exact addsRequests_issue (s := s.latchWord w) (.inl hq)
  · have hq := firstRequest_of_decodeIndex (s := (s.latchWord w).setPoll 0#6) (decodeIndex_of_poll (n := 0) hd rfl)
    exact addsRequests_issue (s := (s.latchWord w).setPoll 0#6) (.inl hq)

/-- `q` is the read of the wire byte of some register index (20_memory.md R31). -/
def IsIndexRead (addr7 : BitVec 7) (q : Xreq) : Prop := ∃ n : Index, q = readRequest addr7 (wire n.val)

theorem firstRequest_isIndexRead {i : Instr} {s : State} {q : Xreq}
    (hm : i.mnemonic = .rdreg ∨ i.mnemonic = .decode ∨ i.mnemonic = .pollall) (hd : decodeWord s.lat.cmd = .instr i)
    (h : firstRequest s = some q) : IsIndexRead s.addr7 q := by
  have of_map : ∀ o : Option Index, o.map (fun k => readRequest s.addr7 (wire k.val)) = some q → IsIndexRead s.addr7 q := by
    intro o ho
    obtain ⟨k, _, hk⟩ := Option.map_eq_some_iff.1 ho
    exact ⟨k, hk.symm⟩
  unfold firstRequest at h
  rw [hd] at h
  cases i with
  | rdw r => simp [Instr.mnemonic] at hm
  | wrw r v => simp [Instr.mnemonic] at hm
  | rdreg n => exact of_map _ h
  | decode n => exact of_map _ h
  | pollall => exact of_map _ h

/-- In an admitted catalog only an index that has a next one is paired (42_decode.md R93 (c)). -/
theorem val_le_of_pair {c : Config} (ha : c.admitted = true) {n : Index} (hp : (c.lut n).pair = true) : n.val ≤ 42 := by
  obtain ⟨hcat, _⟩ := (Bool.and_eq_true _ _).mp ha
  have hwf : (c.lut n).wf n = true := List.all_eq_true.1 hcat n (List.mem_finRange n)
  simp only [LutEntry.wf, Bool.and_eq_true] at hwf
  obtain ⟨⟨⟨_, hnext⟩, _⟩, _⟩ := hwf
  simpa [LutEntry.pairHasNext, hp] using hnext

theorem secondRequest_isIndexRead {s : State} {q : Xreq} (ha : s.cfg.admitted = true) (h : secondRequest s = some q) :
    IsIndexRead s.addr7 q := by
  unfold secondRequest at h
  split at h
  · next k hk =>
    split at h
    · next hp =>
      have hk42 := val_le_of_pair ha hp
      exact ⟨⟨k.val + 1, Nat.lt_succ_of_le (Nat.succ_le_succ hk42)⟩, (Option.some.inj h).symm⟩
    · cases h
  · cases h

theorem State.MayRequest.isIndexRead {i : Instr} {s : State} {q : Xreq} (h : s.MayRequest q)
    (hm : i.mnemonic = .rdreg ∨ i.mnemonic = .decode ∨ i.mnemonic = .pollall) (hd : decodeWord s.lat.cmd = .instr i)
    (ha : s.cfg.admitted = true) : IsIndexRead s.addr7 q :=
  h.elim (firstRequest_isIndexRead hm hd) (secondRequest_isIndexRead ha)

/-- A run of RDREG, DECODE or POLLALL, however far it goes, requests reads of indices only. -/
theorem settle_start_addsIndexReads {i : Instr} (s : State)
    (hm : i.mnemonic = .rdreg ∨ i.mnemonic = .decode ∨ i.mnemonic = .pollall) (ha : s.cfg.admitted = true) :
    AddsRequests (IsIndexRead s.addr7) s (settle (start (encodeWord i) s)) := by
  have hreads : ∀ u, (s.latchCommand i).Keeps u → ∀ q, u.MayRequest q → IsIndexRead s.addr7 q := by
    intro u hk q hq
    have hd : decodeWord u.lat.cmd = .instr i := by rw [hk.cmd]; exact decodeWord_encodeWord i
    have hr := hq.isIndexRead hm hd (by rw [hk.cfg]; exact ha)
    rwa [hk.addr7] at hr
  have hstart := start_keeps (encodeWord i) s
  refine (settle_induction (P := fun u => (s.latchCommand i).Keeps u ∧ AddsRequests (IsIndexRead s.addr7) s u) ?_
    ⟨hstart, (start_addsRequests _ s).mono (hreads _ hstart)⟩).2
  rintro u v ⟨hk, hu⟩ hv
  have hkv := hk.trans (advance_keeps hv)
  exact ⟨hkv, hu.trans ((advance_addsRequests hv).mono (hreads v hkv))⟩

theorem indexOfWire_wire (n : Index) : indexOfWire (wire n.val) = n.val := by
  rw [indexOfWire, wire_toNat, Nat.shiftRight_eq_div_pow]
  omega

end Sys2Proof.Machine
end

section
namespace Sys2Proof.Proofs

open Sys2Proof Sys2Proof.Machine Sys2Proof.Claims

/-- Settles O24: every request of such a run is the read of an index `n`, whose wire byte is `2n` with `n` at most 43. -/
theorem indexCommandsReadEvenWireBytes : Obligations.IndexCommandsReadEvenWireBytes := by
  refine ⟨fun n => ⟨wire_toNat n, indexOfWire_wire n⟩, fun i s t hm h q hq => ?_⟩
  obtain ⟨ha, rfl⟩ := exec_eq_next h
  obtain ⟨evs, he, hr⟩ := settle_start_addsIndexReads s hm ha
  rw [newEvents, he, List.drop_left, mem_requestsOf] at hq
  obtain ⟨n, rfl⟩ := hr q hq
  have hw : (readRequest s.addr7 (wire n.val)).tx0.toNat = 2 * n.val := wire_toNat n
  have hn : n.val < 44 := n.isLt
  exact ⟨rfl, rfl, by omega, by omega⟩

end Sys2Proof.Proofs
end

section
/-! SUPPORT. The rows of the opcode map, field by field (30_encoding.md R50, R51): a row's mask covers the fields that the row
fixes and leaves out its operands. -/

namespace Sys2Proof

open Sys2Proof.Machine Sys2Proof.Claims Sys2Proof.Laws.Fields

@[simp] theorem opField_and (w w' : Word) : opField (w &&& w') = opField w &&& opField w' := BitVec.extractLsb'_and

@[simp] theorem zField_and (w w' : Word) : zField (w &&& w') = zField w &&& zField w' := BitVec.extractLsb'_and

@[simp] theorem aField_and (w w' : Word) : aField (w &&& w') = aField w &&& aField w' := BitVec.extractLsb'_and

@[simp] theorem vField_and (w w' : Word) : vField (w &&& w') = vField w &&& vField w' := BitVec.extractLsb'_and

theorem aField_eq_ofNat (w : Word) : BitVec.ofNat 8 (w.toNat / 65536) = aField w := by
  rw [aField, BitVec.extractLsb', Nat.shiftRight_eq_div_pow]

theorem vField_eq_ofNat (w : Word) : BitVec.ofNat 16 w.toNat = vField w := rfl

theorem word_eq_iff {w w' : Word} :
    w = w' ↔ opField w = opField w' ∧ zField w = zField w' ∧ aField w = aField w' ∧ vField w = vField w' :=
  ⟨fun h => h ▸ ⟨rfl, rfl, rfl, rfl⟩, fun ⟨ho, hz, ha, hv⟩ => word_ext ho hz ha hv⟩

theorem decodeWord_eq_instr_iff_encodeWord {w : Word} {i : Instr} : decodeWord w = .instr i ↔ w = encodeWord i :=
  ⟨fun h => (encodeWord_of_decodeWord h).symm, fun h => h ▸ decodeWord_encodeWord i⟩

theorem decodeWord_eq_instr_iff_fields {w : Word} {i : Instr} :
    decodeWord w = .instr i ↔ opField w = opcode i ∧ zField w = 0#4 ∧ aField w = operandA i ∧ vField w = operandV i := by
  obtain ⟨ho, hz, ha, hv⟩ := fields_of_encodeWord i
  rw [decodeWord_eq_instr_iff_encodeWord, word_eq_iff, ho, hz, ha, hv]

/-- The operands of a row's command are the word's `A` and `V`, or zero where the row has none. -/
theorem rowCommand_operands (m : Mnemonic) (w : Word) :
    operandA (rowCommand m w) = (if m = .pollall then 0#8 else aField w) ∧
      operandV (rowCommand m w) = (if m = .wrw then vField w else 0#16) := by
  cases m with
  | rdw | wrw | rdreg | decode => exact ⟨aField_eq_ofNat w, rfl⟩
  | pollall => exact ⟨rfl, rfl⟩

/-! A row's mask covers `OP` and `Z` whole, and `A` and `V` where they are no operands. -/

theorem opField_and_mask_eq_iff (w : Word) (m : Mnemonic) :
    opField w &&& opField m.mask = opField m.matchWord ↔ opField w = opcode (rowCommand m w) := by
  have hmask : opField m.mask = BitVec.allOnes 4 := by cases m <;> rfl
  have hmatch : opField m.matchWord = opcode (rowCommand m w) := by cases m <;> rfl
  rw [hmask, hmatch, BitVec.and_allOnes]

theorem zField_and_mask_eq_iff (w : Word) (m : Mnemonic) :
    zField w &&& zField m.mask = zField m.matchWord ↔ zField w = 0#4 := by
  have hmask : zField m.mask = BitVec.allOnes 4 := by cases m <;> rfl
  have hmatch : zField m.matchWord = 0#4 := by cases m <;> rfl
  rw [hmask, hmatch, BitVec.and_allOnes]

theorem aField_and_mask_eq_iff (w : Word) (m : Mnemonic) :
    aField w &&& aField m.mask = aField m.matchWord ↔ aField w = operandA (rowCommand m w) := by
  have hmask : aField m.mask = if m = .pollall then BitVec.allOnes 8 else 0#8 := by cases m <;> rfl
  have hmatch : aField m.matchWord = 0#8 := by cases m <;> rfl
  rw [hmask, hmatch, (rowCommand_operands m w).1]
  split <;> simp only [BitVec.and_allOnes, BitVec.and_zero]

theorem vField_and_mask_eq_iff (w : Word) (m : Mnemonic) :
    vField w &&& vField m.mask = vField m.matchWord ↔ vField w = operandV (rowCommand m w) := by
  have hmask : vField m.mask = if m = .wrw then 0#16 else BitVec.allOnes 16 := by cases m <;> rfl
  have hmatch : vField m.matchWord = 0#16 := by cases m <;> rfl
  rw [hmask, hmatch, (rowCommand_operands m w).2]
  split <;> simp only [BitVec.and_allOnes, BitVec.and_zero]

/-- Selection by `match` and `mask` is decoding to the row's command (30_encoding.md R51). -/
theorem and_mask_eq_matchWord_iff (w : Word) (m : Mnemonic) :
    w &&& m.mask = m.matchWord ↔ decodeWord w = .instr (rowCommand m w) := by
  rw [word_eq_iff, decodeWord_eq_instr_iff_fields, opField_and, zField_and, aField_and, vField_and,
    opField_and_mask_eq_iff, zField_and_mask_eq_iff, aField_and_mask_eq_iff, vField_and_mask_eq_iff]

theorem rowCommand_injective (w : Word) : Function.Injective fun m => rowCommand m w := by
  have h (m : Mnemonic) : (rowCommand m w).mnemonic = m := by cases m <;> rfl
  exact Function.LeftInverse.injective h

/-- A decoded command is that of its own mnemonic's row: what the row takes from the word are its operands. -/
theorem eq_rowCommand_of_decodeWord {w : Word} {i : Instr} (h : decodeWord w = .instr i) :
    i = rowCommand i.mnemonic w := by
  obtain ⟨-, -, ha, hv⟩ := fields_of_decodeWord h
  cases i <;> simp only [rowCommand, Instr.mnemonic, aField_eq_ofNat, vField_eq_ofNat, ha, hv, operandA, operandV]

end Sys2Proof
end

section
/-! SUPPORT. The checksum byte completes the sum of the bytes it is made from (40_checksum.md R71). -/

namespace Sys2Proof.Machine

open Sys2Proof

theorem byteSum_add_csum8 (bs : List Byte) : (byteSum bs + (csum8 bs).toNat) % 256 = 0 := by
  rw [csum8, BitVec.toNat_ofNat]
  omega

end Sys2Proof.Machine
end

section
/-! SUPPORT. A one-bit field of a packed record (30_encoding.md R60 to R62), found as the wider ones are by
`BitVec.extractLsb'_append_eq_of_le` and `BitVec.extractLsb'_append_eq_right`. -/

namespace Sys2Proof.Machine

/-- A bit above the low part of a record is a bit of the high part. -/
theorem getLsbD_append_of_le {v w i : Nat} (hi : BitVec v) (lo : BitVec w) (h : w ≤ i) :
    (hi ++ lo).getLsbD i = hi.getLsbD (i - w) := by
  rw [BitVec.getLsbD_append, if_neg (Nat.not_lt.2 h)]

theorem getLsbD_ofBool_zero (b : Bool) : (BitVec.ofBool b).getLsbD 0 = b := by cases b <;> rfl

theorem getLsbD_append_ofBool_zero {v : Nat} (hi : BitVec v) (b : Bool) : (hi ++ BitVec.ofBool b).getLsbD 0 = b := by
  rw [BitVec.getLsbD_append, if_pos Nat.one_pos, getLsbD_ofBool_zero]

end Sys2Proof.Machine
end

section
namespace Sys2Proof.Proofs

open Sys2Proof Sys2Proof.Machine Sys2Proof.Claims

/-- Settles O1: the fields of the encoded word choose the decoder's branch and give back its operands. -/
theorem decodeOfEncodeIsTheCommand : Obligations.DecodeOfEncodeIsTheCommand := decodeWord_encodeWord

/-- Settles O2: the word and the encoding of its command agree in all four fields. -/
theorem encodeOfDecodeIsTheWord : Obligations.EncodeOfDecodeIsTheWord := fun _ _ => encodeWord_of_decodeWord

/-- Settles O3: selection is decoding to the row's command, and two rows never have the same command. -/
theorem wordSelectsTheRowItDecodesTo : Obligations.WordSelectsTheRowItDecodesTo := by
  refine ⟨and_mask_eq_matchWord_iff, fun w i h => ⟨_, eq_rowCommand_of_decodeWord h⟩, fun w m m' h h' => ?_,
    fun w hno => ?_⟩
  · rw [and_mask_eq_matchWord_iff] at h h'
    exact rowCommand_injective w (Decoded.instr.inj (h.symm.trans h'))
  · cases hd : decodeWord w with
    | instr i =>
      have hsel := (and_mask_eq_matchWord_iff w i.mnemonic).2 (eq_rowCommand_of_decodeWord hd ▸ hd)
      exact absurd hsel (hno _)
    | illegal why => exact ⟨why, rfl⟩

/-- Settles O12: the last byte of each frame is the checksum of the doubled address and the bytes before it, and `dirByte` is
the doubled address. -/
theorem commandFramesSumToZeroWithTheAddressByte : Obligations.CommandFramesSumToZeroWithTheAddressByte := by
  intro addr7 r v
  have hread := byteSum_add_csum8 [r, dirByte addr7]
  have hwrite := byteSum_add_csum8 [dirByte addr7, r, lsbOf v, msbOf v]
  simp only [byteSum, dirByte_toNat] at hread hwrite
  exact ⟨⟨csum8 [r, dirByte addr7], rfl, by omega⟩,
    ⟨lsbOf v, msbOf v, csum8 [dirByte addr7, r, lsbOf v, msbOf v], rfl, value_of_lsb_msb v, by omega⟩⟩

/-- Settles O4: the wire byte of WRREG is `n` shifted as the direction byte shifts the address. -/
theorem wrregIsTheWriteOfTheDoubledIndex : Obligations.WrregIsTheWriteOfTheDoubledIndex :=
  fun n _ => ⟨dirByte n, rfl, dirByte_toNat n⟩

/-- Settles O5: each word is the encoding of its command. -/
theorem writtenOutWordsDecodeToTheirCommands : Obligations.WrittenOutWordsDecodeToTheirCommands :=
  ⟨decodeWord_encodeWord (.rdw 0x08#8), decodeWord_encodeWord (.wrw 0x40#8 0x1234#16),
    decodeWord_encodeWord (.rdreg 0x2B#8), decodeWord_encodeWord (.decode 0x16#8), decodeWord_encodeWord .pollall⟩

/-- Settles O49: an extraction passes over the fields below its position one at a time and then finds its own field. -/
theorem responseEntryFieldsStandAtTheirBits : Obligations.ResponseEntryFieldsStandAtTheirBits := by
  refine ⟨⟨rfl, rfl, rfl, rfl, rfl⟩, ⟨rfl, rfl, rfl, rfl⟩, fun e => ?_⟩
  simp (disch := omega) only [Entry.pack, BitVec.extractLsb'_append_eq_of_le, BitVec.extractLsb'_append_eq_right,
    BitVec.extractLsb'_eq_self, getLsbD_append_of_le, getLsbD_append_ofBool_zero, Nat.reduceSub, and_self]

/-- Settles O50: as for the response entry; what `unpack` reads are the fields found at their positions. -/
theorem transportAndLutFieldsStandAtTheirBits : Obligations.TransportAndLutFieldsStandAtTheirBits := by
  refine ⟨fun q => ?_, fun a => ?_, fun e => ?_⟩ <;>
    simp (disch := omega) only [Xreq.pack, Xrsp.pack, Xrsp.unpack, LutEntry.pack, BitVec.extractLsb'_append_eq_of_le,
      BitVec.extractLsb'_append_eq_right, BitVec.extractLsb'_eq_self, getLsbD_append_of_le, getLsbD_append_ofBool_zero,
      getLsbD_ofBool_zero, Nat.reduceSub, and_self]

end Sys2Proof.Proofs
end

section
/-! SUPPORT. The sum of a byte list does not depend on the order of the bytes, and its residue mod 256 is the 8-bit wrapped
sum; so the checksum byte is unique, and in a valid reply each byte is determined by the other two (40_checksum.md R70 to
R75). -/

namespace Sys2Proof.Machine

open Sys2Proof

theorem byteSum_eq_sum (bs : List Byte) : byteSum bs = (bs.map BitVec.toNat).sum := by
  induction bs with
  | nil => rfl
  | cons b bs ih => rw [byteSum, ih, List.map_cons, List.sum_cons]

theorem byteSum_append (bs cs : List Byte) : byteSum (bs ++ cs) = byteSum bs + byteSum cs := by
  simp only [byteSum_eq_sum, List.map_append, List.sum_append]

theorem byteSum_perm {bs cs : List Byte} (h : bs.Perm cs) : byteSum bs = byteSum cs := by
  simpa only [byteSum_eq_sum] using (h.map BitVec.toNat).sum_eq

/-- Adding bytes with 8-bit wrap-around wraps the unbounded sum once. -/
theorem foldl_add_eq_add_ofNat_byteSum (bs : List Byte) (a : Byte) :
    bs.foldl (· + ·) a = a + BitVec.ofNat 8 (byteSum bs) := by
  induction bs generalizing a with
  | nil => exact (BitVec.add_zero a).symm
  | cons b bs ih =>
    rw [List.foldl_cons, ih, byteSum, BitVec.ofNat_add, BitVec.ofNat_toNat, BitVec.setWidth_eq, BitVec.add_assoc]

theorem csum8_eq_neg_ofNat_byteSum (bs : List Byte) : csum8 bs = -BitVec.ofNat 8 (byteSum bs) := by
  apply BitVec.eq_of_toNat_eq
  simp only [csum8, BitVec.toNat_neg, BitVec.toNat_ofNat, Nat.reducePow, Nat.mod_mod]

/-- `csum8` is the only byte that completes the sum (40_checksum.md R71). -/
theorem byteSum_add_mod_eq_zero_iff (bs : List Byte) (c : Byte) :
    (byteSum bs + c.toNat) % 256 = 0 ↔ c = csum8 bs := by
  have hsum := byteSum_add_csum8 bs
  constructor
  · intro hc
    apply BitVec.eq_of_toNat_eq
    have hlt := c.isLt
    have hlt' := (csum8 bs).isLt
    omega
  · rintro rfl
    exact hsum

theorem frameOk_iff_eq_csum8 (r0 r1 r2 : Byte) : frameOk r0 r1 r2 = true ↔ r2 = csum8 [r0, r1] := by
  rw [frameOk_iff, ← byteSum_add_mod_eq_zero_iff]
  rfl

theorem frameOk_swap (r0 r1 r2 : Byte) : frameOk r1 r0 r2 = frameOk r0 r1 r2 := by
  rw [frameOk, frameOk, byteSum_perm (List.Perm.swap r0 r1 [r2])]

theorem frameOk_rotate (r0 r1 r2 : Byte) : frameOk r1 r2 r0 = frameOk r0 r1 r2 := by
  have h : [r1, r2, r0].Perm [r0, r1, r2] := List.perm_append_singleton r0 [r1, r2]
  rw [frameOk, frameOk, byteSum_perm h]

theorem frameOk_eq_false_of_third_ne {r0 r1 r2 x : Byte} (h : frameOk r0 r1 r2 = true) (hx : x ≠ r2) :
    frameOk r0 r1 x = false := by
  rw [frameOk_iff_eq_csum8] at h
  rw [Bool.eq_false_iff, Ne, frameOk_iff_eq_csum8, ← h]
  exact hx

end Sys2Proof.Machine
end

section
namespace Sys2Proof.Proofs

open Sys2Proof Sys2Proof.Machine Sys2Proof.Claims

/-- Settles O10: the wrapped sum is the residue of the unbounded sum, which a permutation leaves alone. -/
theorem checksumIsTheNegatedWrappedSumInAnyOrder : Obligations.ChecksumIsTheNegatedWrappedSumInAnyOrder := by
  refine ⟨fun bs => ?_, fun bs cs h => ?_⟩
  · rw [csum8_eq_neg_ofNat_byteSum, foldl_add_eq_add_ofNat_byteSum, BitVec.zero_add]
  · rw [csum8, csum8, byteSum_perm h]

/-- Settles O8: two bytes that complete the same sum agree mod 256. -/
theorem checksumIsTheOnlyByteThatCompletesTheSum : Obligations.ChecksumIsTheOnlyByteThatCompletesTheSum :=
  byteSum_add_mod_eq_zero_iff

/-- Settles O9: a reply is valid exactly when its third byte is the checksum of the first two. -/
theorem generateAndValidateAgree : Obligations.GenerateAndValidateAgree := by
  refine ⟨fun r0 r1 => (frameOk_iff_eq_csum8 r0 r1 _).2 rfl, fun r0 r1 r2 => (frameOk_iff_eq_csum8 r0 r1 r2).1,
    fun bs => ?_⟩
  rw [byteSum_append]
  exact byteSum_add_csum8 bs

/-- Settles O11: the first two bytes determine the third, and a reply read from any of its bytes on, or with the first two
swapped, is as valid as before. -/
theorem replyCheckDetectsSingleByteErrorsAndNotTheSwap :
    Obligations.ReplyCheckDetectsSingleByteErrorsAndNotTheSwap := by
  intro r0 r1 r2 x h
  refine ⟨fun hx => ?_, fun hx => ?_, frameOk_eq_false_of_third_ne h, (frameOk_swap r0 r1 r2).trans h⟩
  · rw [← frameOk_rotate] at h ⊢
    exact frameOk_eq_false_of_third_ne h hx
  · rw [← frameOk_rotate, ← frameOk_rotate] at h ⊢
    exact frameOk_eq_false_of_third_ne h hx

end Sys2Proof.Proofs
end

section
/-! SUPPORT. A command that makes one bus transaction and reports one entry, from its start to IDLE (41_framer.md R85, R87;
42_decode.md R90), and its entry in plain arithmetic. -/

namespace Sys2Proof.Machine

open Sys2Proof Sys2Proof.Claims

/-- The entry of a raw read is the outcome that R85 and R90 write out. -/
theorem readEntry_replyWord (idx waddr : Nat) (a : Xrsp) :
    readEntry (BitVec.ofNat 6 idx) (BitVec.ofNat 8 waddr) (replyWord a) = rawOutcome idx waddr a := by
  obtain ⟨hok, hw⟩ | ⟨hok, hsum, hw⟩ | ⟨hok, hsum, hw⟩ := replyWord_cases a
  · have hv : ¬ ValidReply a := fun h => Bool.false_ne_true (hok.symm.trans h.1)
    rw [hw, rawOutcome, if_neg hv, failStatus, hok]
    rfl
  · have hv : ¬ ValidReply a := fun h => hsum h.2
    rw [hw, rawOutcome, if_neg hv, failStatus, if_pos hok]
    rfl
  · have hval : (rawOfReply a.rx0 a.rx1).setWidth 32 = BitVec.ofNat 32 (replyValue a) := by
      rw [replyValue, ← rawOfReply_toNat, BitVec.ofNat_toNat]
    rw [hw, rawOutcome, if_pos ⟨hok, hsum⟩, ← hval]
    rfl

/-- The entry of a write is the entry without a value that R87 writes out. -/
theorem writeEntry_eq_noValue (r : Byte) (a : Xrsp) :
    writeEntry r a = noValue (if a.ok = true then .ok else .xportErr) 0 r.toNat true := by
  rw [noValue, BitVec.ofNat_toNat, BitVec.setWidth_eq]
  rfl

/-- When the one entry of a command of one transaction has been taken, the block is IDLE, and only the ports, the record and
the latches differ from the state before the command. -/
theorem exec_of_one_transaction {i : Instr} {s : State} {q : Xreq} {a : Xrsp} {e : Entry} {rest : List Xrsp} {k : Nat}
    (hi : i ≠ .pollall) (ha : s.cfg.admitted = true) (hk : s.rspReady = k + 1)
    (h : ∃ l, l.cmd = encodeWord i ∧ settle (start (encodeWord i) s) =
      settle (taken (s.ran ⟨s.stat, [.request q, .answer a, .entry e], rest⟩ l))) :
    ∃ l, exec i s = .next { s with
      phase := .idle
      xreq := none
      rsp := none
      xrspIn := rest
      rspReady := k
      lat := l
      trace := s.trace ++ [.request q, .answer a, .entry e] } := by
  obtain ⟨l, hl, hs⟩ := h
  have hd : decodeWord (s.ran ⟨s.stat, [.request q, .answer a, .entry e], rest⟩ l).lat.cmd ≠ .instr .pollall := by
    rw [show (State.ran _ l s).lat.cmd = encodeWord i from hl, decodeWord_encodeWord]
    simpa using hi
  refine ⟨l, ?_⟩
  rw [exec_eq_runBlock, runBlock_next (by rw [(start_keeps _ s).cfg]; exact ha), hs, settle_taken_of_not_poll hd]
  simp only [State.ran, State.goIdle, entriesOf, List.length_singleton, hk, Nat.add_sub_cancel]

theorem start_rdw (r : Byte) (s : State) :
    start (encodeWord (.rdw r)) s = (s.latchCommand (.rdw r)).beginRead .xfer1 r := by
  rw [start, decodeWord_encodeWord]
  rfl

theorem start_wrw (r : Byte) (v : Half) (s : State) :
    start (encodeWord (.wrw r v)) s = wrwStart r v (s.latchCommand (.wrw r v)) := by
  rw [start, decodeWord_encodeWord]
  rfl

end Sys2Proof.Machine
end

section
namespace Sys2Proof.Proofs

open Sys2Proof Sys2Proof.Machine Sys2Proof.Claims

/-- Settles O13: RDW is one raw read of the wire byte, and its entry is that of the answer. -/
theorem rdwReadsOneWireRegister : Obligations.RdwReadsOneWireRegister := by
  intro r s a rest k ha hx hk
  have hentry : rawOutcome 0 r.toNat a = readEntry 0#6 r (replyWord a) := by
    rw [← readEntry_replyWord, BitVec.ofNat_toNat, BitVec.setWidth_eq]
  have hanswered (t : State) (b : Xrsp) (ht : t.lat.cmd = encodeWord (.rdw r)) :
      answered1 b t = rawAnswered 0#6 r b t :=
    answered1_rdw (by rw [ht, decodeWord_encodeWord]) b
  refine exec_of_one_transaction (by simp) ha hk ?_
  rw [start_rdw, hentry]
  exact settle_rawRead (s := s.latchCommand (.rdw r)) hk hanswered
    (by rw [show (s.latchCommand (.rdw r)).xrspIn = a :: rest from hx]; rfl)

/-- Settles O14: WRW is one write to the wire byte, which fails only when the transport does. -/
theorem wrwWritesOneWireRegister : Obligations.WrwWritesOneWireRegister := by
  intro r v s a rest k ha hx hk
  refine exec_of_one_transaction (by simp) ha hk ?_
  rw [start_wrw, ← writeEntry_eq_noValue]
  exact settle_wrwStart (s := s.latchCommand (.wrw r v)) hk (decodeWord_encodeWord _)
    (by rw [show (s.latchCommand (.wrw r v)).xrspIn = a :: rest from hx]; rfl)

end Sys2Proof.Proofs
end

section
/-! SUPPORT. The outcome of a decode in plain arithmetic (42_decode.md R95, R96, R97; 43_minmax_poll.md R105, R106): the reply, the
statistics, the entry, and the big step by the number of reads. -/

namespace Sys2Proof.Machine

open Sys2Proof Sys2Proof.Claims

theorem replyWord_of_validReply {a : Xrsp} (h : ValidReply a) : replyWord a = .ok (rawOfReply a.rx0 a.rx1) := by
  obtain ⟨hok, _⟩ | ⟨_, hsum, _⟩ | ⟨_, _, hw⟩ := replyWord_cases a
  · exact absurd (hok.symm.trans h.1) Bool.false_ne_true
  · exact absurd h.2 hsum
  · exact hw

theorem replyWord_of_not_validReply {a : Xrsp} (h : ¬ ValidReply a) :
    ∃ e, replyWord a = .error e ∧ e.status = failStatus a := by
  obtain ⟨hok, hw⟩ | ⟨hok, _, hw⟩ | ⟨hok, hsum, _⟩ := replyWord_cases a
  · exact ⟨_, hw, by rw [failStatus, hok]; rfl⟩
  · exact ⟨_, hw, by rw [failStatus, if_pos hok]; rfl⟩
  · exact absurd ⟨hok, hsum⟩ h

theorem emptyEntry_eq_noValue (st : Status) (n : Index) (m : Nat) (last : Bool) :
    emptyEntry st (idxBits n) (wire m) last = noValue st n.val (2 * m) last := by
  rw [noValue, ← wire_eq]
  rfl

theorem update_eq_updated (e : StatEntry) (v : Word) : e.update v = updated e v.toNat := by
  obtain ⟨hmin, hmax⟩ := update_toNat e v
  rw [updated, ← hmin, ← hmax, BitVec.ofNat_toNat, BitVec.ofNat_toNat, BitVec.setWidth_eq, BitVec.setWidth_eq]

/-- A 32-bit value times a 25-bit reciprocal fits in 57 bits (42_decode.md R96). -/
theorem scale_toNat (value : Word) (recip : BitVec 25) : (scale value recip).toNat = value.toNat * recip.toNat := by
  have hv : value.toNat < 2 ^ 32 := value.isLt
  have hr : recip.toNat < 2 ^ 25 := recip.isLt
  have hprod : value.toNat * recip.toNat < 2 ^ 32 * 2 ^ 25 := Nat.mul_lt_mul'' hv hr
  rw [scale, BitVec.toNat_mul, BitVec.toNat_setWidth_of_le (by decide), BitVec.toNat_setWidth_of_le (by decide)]
  exact Nat.mod_eq_of_lt hprod

/-- The entry of a successful decode whose statistics have been updated is the outcome that R97 writes out. -/
theorem decodedEntry_eq_decodeOutcome (e : LutEntry) (n : Index) (last : Bool) (v : Word) (st : StatEntry) :
    decodedEntry e n last v (st.update v) = decodeOutcome e n.val last v.toNat (updated st v.toNat) := by
  obtain ⟨hmin, hmax⟩ := update_bounds st v
  have hspan : (st.update v).span = BitVec.ofNat 32 ((st.update v).max.toNat - (st.update v).min.toNat) := by
    rw [← span_toNat (hmin.trans hmax), BitVec.ofNat_toNat, BitVec.setWidth_eq]
  have hphys : scale v e.recip = BitVec.ofNat 57 (v.toNat * e.recip.toNat) := by
    rw [← scale_toNat, BitVec.ofNat_toNat, BitVec.setWidth_eq]
  rw [← update_eq_updated, decodeOutcome, ← wire_eq, ← hspan, ← hphys, BitVec.ofNat_toNat, BitVec.setWidth_eq]
  rfl

theorem bigFinish_eq (c : Config) (st : Stat) (n : Index) (last : Bool) (v : Word) (evs : List Event)
    (rest : List Xrsp) :
    bigFinish c st n last v evs rest =
      ⟨st.set n.val (updated (st.get n) v.toNat) n.isLt,
        evs ++ [.entry (decodeOutcome (c.lut n) n.val last v.toNat (updated (st.get n) v.toNat))], rest⟩ := by
  rw [← decodedEntry_eq_decodeOutcome, ← update_eq_updated]
  rfl

theorem rawWord_toNat (a : Xrsp) : ((rawOfReply a.rx0 a.rx1).setWidth 32).toNat = replyValue a := by
  rw [BitVec.toNat_setWidth_of_le (by decide), rawOfReply_toNat]

theorem pairWord_toNat (a b : Xrsp) :
    (pairCombine (rawOfReply a.rx0 a.rx1) (rawOfReply b.rx0 b.rx1)).toNat = replyValue a + 65536 * replyValue b := by
  rw [pairCombine_toNat, rawOfReply_toNat, rawOfReply_toNat]

/-- A decode that makes one read (42_decode.md R97). -/
theorem bigDecodeOne_of_one_read {c : Config} {n : Index} {a : Xrsp} (h : (c.lut n).pair = false ∨ ¬ ValidReply a)
    (addr7 : BitVec 7) (st : Stat) (last : Bool) (rest : List Xrsp) :
    bigDecodeOne c addr7 st n last (a :: rest) = some ⟨
      if ValidReply a then st.set n.val (updated (st.get n) (replyValue a)) n.isLt else st,
      readEvents addr7 (wire n.val) a ++ [.entry (if ValidReply a then
          decodeOutcome (c.lut n) n.val last (replyValue a) (updated (st.get n) (replyValue a))
        else noValue (failStatus a) n.val (2 * n.val) last)],
      rest⟩ := by
  rw [bigDecodeOne, bigMemRead_cons]
  by_cases hv : ValidReply a
  · have hp : (c.lut n).pair = false := h.resolve_right (not_not_intro hv)
    simp only [replyWord_of_validReply hv, hp, if_pos hv, Bool.false_eq_true, if_false, bigFinish_eq, rawWord_toNat]
  · obtain ⟨e, hw, he⟩ := replyWord_of_not_validReply hv
    simp only [hw, he, if_neg hv, emptyEntry_eq_noValue]

/-- A decode that makes two reads (42_decode.md R95, R97). -/
theorem bigDecodeOne_of_two_reads {c : Config} {n : Index} {a : Xrsp} (hp : (c.lut n).pair = true) (ha : ValidReply a)
    (addr7 : BitVec 7) (st : Stat) (last : Bool) (b : Xrsp) (rest : List Xrsp) :
    bigDecodeOne c addr7 st n last (a :: b :: rest) = some ⟨
      if ValidReply b then st.set n.val (updated (st.get n) (replyValue a + 65536 * replyValue b)) n.isLt else st,
      readEvents addr7 (wire n.val) a ++ readEvents addr7 (wire (n.val + 1)) b ++ [.entry (if ValidReply b then
          decodeOutcome (c.lut n) n.val last (replyValue a + 65536 * replyValue b)
            (updated (st.get n) (replyValue a + 65536 * replyValue b))
        else noValue (failStatus b) n.val (2 * n.val + 2) last)],
      rest⟩ := by
  rw [bigDecodeOne, bigMemRead_cons]
  simp only [replyWord_of_validReply ha, if_pos hp, bigMemRead_cons]
  by_cases hb : ValidReply b
  · simp only [replyWord_of_validReply hb, if_pos hb, bigFinish_eq, pairWord_toNat]
  · obtain ⟨e, hw, he⟩ := replyWord_of_not_validReply hb
    simp only [hw, he, if_neg hb, emptyEntry_eq_noValue, Nat.mul_add, Nat.mul_one]

theorem start_rdreg_of_index (n : Index) (s : State) : start (encodeWord (.rdreg (BitVec.ofNat 8 n.val))) s =
    (s.latchCommand (.rdreg (BitVec.ofNat 8 n.val))).beginRead .xfer1 (wire n.val) := by
  rw [start, decodeWord_encodeWord]
  exact Proofs.rdregStart_of_index n _

theorem start_decode_of_index (n : Index) (s : State) : start (encodeWord (.decode (BitVec.ofNat 8 n.val))) s =
    decodeStart n (s.latchCommand (.decode (BitVec.ofNat 8 n.val))) := by
  rw [start, decodeWord_encodeWord]
  exact Proofs.decodeCmdStart_of_index n _

/-- The run of a DECODE whose answers are there and whose entry is taken is its big step, and ends IDLE (42_decode.md R97). -/
theorem settle_decodeStart_to_idle {s : State} {b : Byte} {n : Index} {r : BigResult} {k : Nat}
    (hd : decodeWord s.lat.cmd = .instr (.decode b)) (hn : indexOfByte b = some n) (hk : s.rspReady = k + 1)
    (h : bigDecodeOne s.cfg s.addr7 s.stat n true s.xrspIn = some r) :
    ∃ l, settle (decodeStart n s) = (s.ran r l).goIdle := by
  have hidx : decodeIndex s = some n := by simp only [decodeIndex, hd, hn]
  have hlast : lastExpected s = true := lastExpected_of_not_poll (by simp [hd])
  obtain ⟨l, hl, hs⟩ := settle_decodeStart hidx hk (by rw [hlast]; exact h)
  have hover : decodeWord (s.ran r l).lat.cmd ≠ .instr .pollall := by
    rw [show (s.ran r l).lat.cmd = s.lat.cmd from hl, hd]
    simp
  exact ⟨l, hs.trans (settle_taken_of_not_poll hover)⟩

/-- DECODE of an index whose answers are there and whose entry is taken does what its big step says, and is over. Unlike
`Obligations.EveryCommandIsItsBigStep` this asks nothing of the control state before it. -/
theorem exec_decode_of_bigDecodeOne {n : Index} {s : State} {r : BigResult} {k : Nat} (ha : s.cfg.admitted = true)
    (hk : s.rspReady = k + 1) (h : bigDecodeOne s.cfg s.addr7 s.stat n true s.xrspIn = some r) :
    ∃ l, exec (.decode (BitVec.ofNat 8 n.val)) s = .next { s with
      phase := .idle
      xreq := none
      rsp := none
      xrspIn := r.rest
      rspReady := k
      lat := l
      stat := r.stat
      trace := s.trace ++ r.events } := by
  obtain ⟨l, hs⟩ := settle_decodeStart_to_idle (s := s.latchCommand (.decode (BitVec.ofNat 8 n.val)))
    (decodeWord_encodeWord _) (indexOfByte_ofNat n) hk h
  obtain ⟨e, he⟩ := bigDecodeOne_entry h
  refine ⟨l, ?_⟩
  rw [exec_eq_runBlock, runBlock_next (by rw [(start_keeps _ s).cfg]; exact ha), start_decode_of_index, hs]
  simp only [State.ran, State.goIdle, State.latchCommand, State.latchWord, he, hk, List.length_singleton,
    Nat.add_sub_cancel]

end Sys2Proof.Machine
end

section
namespace Sys2Proof.Proofs

open Sys2Proof Sys2Proof.Machine Sys2Proof.Claims

/-- Settles O15: RDREG is one raw read of the doubled index, and its entry is that of the answer. -/
theorem rdregReadsTheRawWordOfAnIndex : Obligations.RdregReadsTheRawWordOfAnIndex := by
  intro n s a rest k ha hx hk
  have hanswered (t : State) (b : Xrsp) (ht : t.lat.cmd = encodeWord (.rdreg (BitVec.ofNat 8 n.val))) :
      answered1 b t = rawAnswered (idxBits n) (wire n.val) b t :=
    answered1_rdreg (by rw [ht, decodeWord_encodeWord]) (indexOfByte_ofNat n) b
  refine exec_of_one_transaction (by simp) ha hk ?_
  rw [start_rdreg_of_index, ← readEntry_replyWord, ← wire_eq]
  exact settle_rawRead (s := s.latchCommand (.rdreg (BitVec.ofNat 8 n.val))) hk hanswered
    (by rw [show (s.latchCommand (.rdreg (BitVec.ofNat 8 n.val))).xrspIn = a :: rest from hx]; rfl)

/-- Settles O17: the run of the DECODE is its big step, which makes one read. -/
theorem decodeThatMakesOneRead : Obligations.DecodeThatMakesOneRead := by
  intro n s a rest k ha hx hk h
  rw [← wire_eq]
  exact exec_decode_of_bigDecodeOne ha hk (by rw [hx]; exact bigDecodeOne_of_one_read h _ _ _ _)

/-- Settles O18: the run of the DECODE is its big step, which makes two reads. -/
theorem decodeThatMakesTwoReads : Obligations.DecodeThatMakesTwoReads := by
  intro n s a b rest k ha hx hk hp hv
  rw [show 2 * n.val + 2 = 2 * (n.val + 1) from rfl, ← wire_eq, ← wire_eq]
  exact exec_decode_of_bigDecodeOne ha hk (by rw [hx]; exact bigDecodeOne_of_two_reads hp hv _ _ _ _ _)

end Sys2Proof.Proofs
end

section
/-! SUPPORT. What a run of DECODE or POLLALL writes and reports, however far it goes (42_decode.md R97; 43_minmax_poll.md R105,
R106): a DECODE writes the statistics of its own index alone, and each entry offered lies within the statistics. -/

namespace Sys2Proof.Machine

open Sys2Proof Sys2Proof.Claims

theorem newEvents_of_trace {s t : State} {evs : List Event} (h : t.trace = s.trace ++ evs) : newEvents s t = evs := by
  rw [newEvents, h, List.drop_left]

/-- During a DECODE of `b` no event writes the statistics of an index other than `b`. -/
theorem advance_statAt_of_decode {s t : State} {b : Byte} {m : Index} (hd : decodeWord s.lat.cmd = .instr (.decode b))
    (hm : m.val ≠ b.toNat) (h : advance s = some t) : t.statAt m = s.statAt m := by
  obtain h | ⟨n, v, hn, h⟩ := advance_stat h
  · exact State.statAt_congr h m
  · have hb : indexOfByte b = some n := by simpa only [decodeIndex, hd] using hn
    have hne : m ≠ n := fun e => hm ((congrArg Fin.val e).trans (indexOfByte_some hb).symm)
    rw [State.statAt_congr h, statUpdate_statAt, if_neg hne]

/-- If the entry reports success, its value lies between its extremes, and its span is their difference without a borrow. -/
def Entry.Within (e : Entry) : Prop :=
  e.status = .ok → e.min.toNat ≤ e.value.toNat ∧ e.value.toNat ≤ e.max.toNat ∧
    e.span.toNat = e.max.toNat - e.min.toNat

theorem decodedEntry_within (e : LutEntry) (n : Index) (last : Bool) (v : Word) (st : StatEntry) :
    (decodedEntry e n last v (st.update v)).Within := by
  obtain ⟨hmin, hmax⟩ := update_bounds st v
  exact fun _ => ⟨hmin, hmax, span_toNat (hmin.trans hmax)⟩

theorem emptyEntry_within (st : Status) (idx : BitVec 6) (w : Byte) (last : Bool) : (emptyEntry st idx w last).Within :=
  fun _ => ⟨le_rfl, le_rfl, rfl⟩

/-- The entry on offer, if there is one, lies within the statistics it reports. -/
def State.OffersWithin (s : State) : Prop := s.phase = .respond → ∀ e, s.rsp = some e → e.Within

theorem State.offersWithin_offer {e : Entry} (h : e.Within) (s : State) : (s.offer e).OffersWithin := by
  intro _ e' he
  exact Option.some.inj he ▸ h

theorem State.offersWithin_of_not_respond {s : State} (h : s.phase ≠ .respond) : s.OffersWithin :=
  fun hp => absurd hp h

theorem decodeAnswered1_offersWithin (n : Index) (last : Bool) (a : Xrsp) (s : State) :
    (decodeAnswered1 n last a s).OffersWithin := by
  cases hw : replyWord a with
  | error e =>
    rw [decodeAnswered1_error hw]
    exact State.offersWithin_offer (emptyEntry_within _ _ _ _) s
  | ok lo =>
    cases hp : (s.cfg.lut n).pair with
    | true =>
      rw [decodeAnswered1_pair hw hp]
      exact State.offersWithin_of_not_respond (s := State.beginRead _ _ _) Phase.noConfusion
    | false =>
      rw [decodeAnswered1_single hw hp]
      exact State.offersWithin_offer (decodedEntry_within _ _ _ _ _) _

theorem decodeAnswered2_offersWithin (n : Index) (last : Bool) (a : Xrsp) (s : State) :
    (decodeAnswered2 n last a s).OffersWithin := by
  cases hw : replyWord a with
  | error e =>
    rw [decodeAnswered2_error hw]
    exact State.offersWithin_offer (emptyEntry_within _ _ _ _) s
  | ok hi =>
    rw [decodeAnswered2_ok hw]
    exact State.offersWithin_offer (decodedEntry_within _ _ _ _ _) _

/-- Whatever event of a DECODE or a POLLALL happens, the entry then on offer lies within the statistics. -/
theorem advance_offersWithin {i : Instr} {s t : State} (hm : i.mnemonic = .decode ∨ i.mnemonic = .pollall)
    (hd : decodeWord s.lat.cmd = .instr i) (h : advance s = some t) : t.OffersWithin := by
  obtain ⟨a, rest, hp, _, rfl⟩ | ⟨a, rest, hp, _, rfl⟩ | ⟨e, k, _, _, _, rfl⟩ := advance_cases h
  · have hd' : decodeWord (s.receive a rest).lat.cmd = .instr i := hd
    obtain ⟨r, hi, _⟩ | ⟨r, v, hi, _⟩ | ⟨n, k, hi, _, _⟩ | ⟨k, _, hs⟩ | ⟨_, hs⟩ := answered1_cases a (s.receive a rest)
    · cases hd'.symm.trans hi; simp [Instr.mnemonic] at hm
    · cases hd'.symm.trans hi; simp [Instr.mnemonic] at hm
    · cases hd'.symm.trans hi; simp [Instr.mnemonic] at hm
    · rw [hs]; exact decodeAnswered1_offersWithin _ _ _ _
    · rw [hs]; exact State.offersWithin_of_not_respond (by simp [hp])
  · obtain ⟨k, _, hs⟩ | ⟨_, hs⟩ := answered2_cases a (s.receive a rest)
    · rw [hs]; exact decodeAnswered2_offersWithin _ _ _ _
    · rw [hs]; exact State.offersWithin_of_not_respond (by simp [hp])
  · obtain ⟨q, _, hi, _⟩ | ⟨_, hs⟩ := taken_effect (s.handOver e)
    · exact State.offersWithin_of_not_respond (by simp [hi.phase])
    · rw [hs]; exact State.offersWithin_of_not_respond (by simp)

/-- No command's start offers an entry with a value. -/
theorem start_offersWithin (w : Word) (s : State) : (start w s).OffersWithin := by
  obtain ⟨_, st, b, h⟩ | ⟨_, q, _, h⟩ | ⟨_, h⟩ := start_cases w s <;> rw [h]
  · exact State.offersWithin_offer (emptyEntry_within _ _ _ _) _
  · exact State.offersWithin_of_not_respond (by simp)
  · exact State.offersWithin_of_not_respond (by simp)

/-- An event hands over the entry that is on offer, or none. -/
theorem advance_entries {s t : State} (h : advance s = some t) :
    ∃ evs, t.trace = s.trace ++ evs ∧ ∀ e ∈ entriesOf evs, s.phase = .respond ∧ s.rsp = some e := by
  obtain ⟨a, rest, _, _, rfl⟩ | ⟨a, rest, _, _, rfl⟩ | ⟨e, k, hp, he, _, rfl⟩ := advance_cases h
  · obtain ⟨e, ho, _⟩ | ⟨q, _, hi, _⟩ | ⟨_, hs⟩ := answered1_effect a (s.receive a rest)
    · exact ⟨[.answer a], ho.trace, by simp [entriesOf]⟩
    · exact ⟨[.answer a, .request q], hi.trace.trans (List.append_assoc _ _ _), by simp [entriesOf]⟩
    · exact ⟨[.answer a], by rw [hs]; rfl, by simp [entriesOf]⟩
  · obtain ⟨e, ho, _⟩ | ⟨_, hs⟩ := answered2_effect a (s.receive a rest)
    · exact ⟨[.answer a], ho.trace, by simp [entriesOf]⟩
    · exact ⟨[.answer a], by rw [hs]; rfl, by simp [entriesOf]⟩
  · obtain ⟨q, _, hi, _⟩ | ⟨_, hs⟩ := taken_effect (s.handOver e)
    · exact ⟨[.entry e, .request q], hi.trace.trans (List.append_assoc _ _ _), by simp [entriesOf, hp, he]⟩
    · exact ⟨[.entry e], by rw [hs]; rfl, by simp [entriesOf, hp, he]⟩

theorem start_entries (w : Word) (s : State) : ∃ evs, (start w s).trace = s.trace ++ evs ∧ entriesOf evs = [] := by
  obtain ⟨_, st, b, h⟩ | ⟨_, q, _, h⟩ | ⟨_, h⟩ := start_cases w s <;> rw [h]
  · exact ⟨[], (List.append_nil _).symm, rfl⟩
  · exact ⟨[.request q], rfl, rfl⟩
  · exact ⟨[.request _], rfl, rfl⟩

/-- Every entry that is handed over in a run of DECODE or POLLALL lies within its statistics: it was on offer before. -/
theorem settle_start_entries {i : Instr} (hm : i.mnemonic = .decode ∨ i.mnemonic = .pollall) (s : State) :
    ∃ evs, (settle (start (encodeWord i) s)).trace = s.trace ++ evs ∧ ∀ e ∈ entriesOf evs, e.Within := by
  have hd : decodeWord (start (encodeWord i) s).lat.cmd = .instr i := by rw [start_cmd, decodeWord_encodeWord]
  obtain ⟨evs, htrace, hnone⟩ := start_entries (encodeWord i) s
  refine (settle_induction (P := fun u => decodeWord u.lat.cmd = .instr i ∧ u.OffersWithin ∧
    ∃ evs, u.trace = s.trace ++ evs ∧ ∀ e ∈ entriesOf evs, e.Within) ?_
    ⟨hd, start_offersWithin _ s, evs, htrace, by simp [hnone]⟩).2.2
  rintro u v ⟨hu, ho, xs, hx, hwx⟩ hv
  obtain ⟨ys, hy, hoffer⟩ := advance_entries hv
  refine ⟨by rw [(advance_keeps hv).cmd]; exact hu, advance_offersWithin hm hu hv, xs ++ ys,
    by rw [hy, hx, List.append_assoc], fun e he => ?_⟩
  rw [entriesOf_append, List.mem_append] at he
  obtain he | he := he
  · exact hwx e he
  · obtain ⟨hp, hrsp⟩ := hoffer e he
    exact ho hp e hrsp

end Sys2Proof.Machine
end

section
/-! SUPPORT. What the five checks on a LUT entry say (42_decode.md R93). -/

namespace Sys2Proof

theorem recip_eq_filler_iff (r : BitVec 25) : r = 0x1000000#25 ↔ r.toNat = 2 ^ 24 := BitVec.toNat_inj.symm

theorem LutEntry.unknownIsDefault_iff (e : LutEntry) : e.unknownIsDefault = true ↔
    (e.known = false → e.pair = false ∧ e.bitf = false ∧ e.recip.toNat = 2 ^ 24) := by
  cases hk : e.known <;> simp [unknownIsDefault, hk, recip_eq_filler_iff, and_assoc]

theorem LutEntry.pairIsNotBitfield_iff (e : LutEntry) :
    e.pairIsNotBitfield = true ↔ ¬ (e.pair = true ∧ e.bitf = true) := by
  cases hp : e.pair <;> simp [pairIsNotBitfield, hp]

theorem LutEntry.pairHasNext_iff (n : Index) (e : LutEntry) :
    e.pairHasNext n = true ↔ (e.pair = true → n.val ≤ 42) := by
  cases hp : e.pair <;> simp [pairHasNext, hp]

theorem LutEntry.scaledHasReciprocal_iff (e : LutEntry) :
    e.scaledHasReciprocal = true ↔ (e.bitf = false → 1 ≤ e.recip.toNat) := by
  have hrecip : e.recip ≠ 0#25 ↔ 1 ≤ e.recip.toNat := by
    rw [Ne, ← BitVec.toNat_inj, Nat.one_le_iff_ne_zero]
    rfl
  cases hb : e.bitf <;> simp [scaledHasReciprocal, hb, ← hrecip]

theorem LutEntry.bitfieldHasFiller_iff (e : LutEntry) :
    e.bitfieldHasFiller = true ↔ (e.bitf = true → e.recip.toNat = 2 ^ 24) := by
  cases hb : e.bitf <;> simp [bitfieldHasFiller, hb, recip_eq_filler_iff]

theorem LutEntry.wf_iff (n : Index) (e : LutEntry) : e.wf n = true ↔
    (e.known = false → e.pair = false ∧ e.bitf = false ∧ e.recip.toNat = 2 ^ 24) ∧
    ¬ (e.pair = true ∧ e.bitf = true) ∧
    (e.pair = true → n.val ≤ 42) ∧
    (e.bitf = false → 1 ≤ e.recip.toNat) ∧
    (e.bitf = true → e.recip.toNat = 2 ^ 24) := by
  simp only [wf, Bool.and_eq_true, unknownIsDefault_iff, pairIsNotBitfield_iff, pairHasNext_iff,
    scaledHasReciprocal_iff, bitfieldHasFiller_iff, and_assoc]

theorem Catalog.wf_iff (c : Catalog) : Catalog.wf c = true ↔ ∀ n : Index, (c.get n).wf n = true := by
  simp [Catalog.wf]

theorem Catalog.hasDocumentRows_iff (c : Catalog) : Catalog.hasDocumentRows c = true ↔
    c.get 0x04 = LutEntry.inputVoltage ∧ c.get 0x16 = LutEntry.wattSecondsIn := by
  simp [Catalog.hasDocumentRows]

end Sys2Proof
end

section
/-! SUPPORT. The LUT entry of a scale over the rationals (42_decode.md R94, R100): `RECIP` is `2^24 / |s|` rounded to the nearest
integer. -/

namespace Sys2Proof

/-- `2^24 / |s|`, the exact reciprocal in units of `2^-24` (42_decode.md R94). -/
def Scale.exactRecip (s : Scale) : ℚ := (2 : ℚ) ^ 24 / |(s.num : ℚ) / (s.den : ℚ)|

/-- Division of naturals rounds as R94 asks. -/
theorem Scale.recip_eq_round {s : Scale} (h : s.num ≠ 0) : (s.recip : ℤ) = round s.exactRecip := by
  have hnum : (s.num.natAbs : ℚ) ≠ 0 := by exact_mod_cast Int.natAbs_ne_zero.2 h
  have habs : |(s.num : ℚ) / (s.den : ℚ)| = (s.num.natAbs : ℚ) / (s.den : ℚ) := by
    rw [abs_div, Nat.abs_cast, Nat.cast_natAbs, Int.cast_abs]
  have hsum : s.exactRecip + 1 / 2 =
      ((2 * (2 ^ rf * s.den) + s.num.natAbs : ℕ) : ℚ) / ((2 * s.num.natAbs : ℕ) : ℚ) := by
    rw [exactRecip, habs, div_div_eq_mul_div]
    push_cast [rf]
    field_simp
    ring
  rw [round_eq, hsum, Rat.floor_natCast_div_natCast, recip]
  rfl

theorem LutEntry.ofScale_of_num_eq_zero {s : Scale} (hd : s.den ≠ 0) (h : s.num = 0) :
    LutEntry.ofScale s = some ⟨true, false, true, 0x1000000#25⟩ := by
  simp [ofScale, hd, h]

theorem LutEntry.ofScale_of_num_ne_zero {s : Scale} (hd : s.den ≠ 0) (h : s.num ≠ 0) : LutEntry.ofScale s =
    if 1 ≤ s.recip ∧ s.recip ≤ 2 ^ 25 - 1 then some ⟨true, decide (s.num < 0), false, BitVec.ofNat 25 s.recip⟩
    else none := by
  simp [ofScale, hd, h, Scale.representable]

/-- The reciprocal of a LUT entry made from a non-zero scale. -/
theorem LutEntry.recip_of_ofScale {s : Scale} {e : LutEntry} (h : LutEntry.ofScale s = some e) (hn : s.num ≠ 0) :
    (e.recip.toNat : ℤ) = round s.exactRecip := by
  have hd : s.den ≠ 0 := fun h0 => by simp [ofScale, h0] at h
  rw [ofScale_of_num_ne_zero hd hn] at h
  split at h
  · next hrep =>
    obtain rfl := Option.some.inj h
    rw [← Scale.recip_eq_round hn, BitVec.toNat_ofNat, Nat.mod_eq_of_lt (by omega)]
  · cases h

end Sys2Proof
end

section
namespace Sys2Proof.Proofs

open Sys2Proof Sys2Proof.Machine Sys2Proof.Claims

/-- Settles O51: each check of the model says its condition. -/
theorem admissionIsTheFiveConditionsAndTheDocumentRows :
    Obligations.AdmissionIsTheFiveConditionsAndTheDocumentRows := by
  intro c
  rw [Config.admitted, Bool.and_eq_true, Catalog.wf_iff, Catalog.hasDocumentRows_iff]
  exact and_congr (forall_congr' fun n => LutEntry.wf_iff n (c.lut n)) Iff.rfl

/-- Settles O25: every command runs the block, and the block runs under an admitted configuration only. -/
theorem unadmittedCatalogIsRefused : Obligations.UnadmittedCatalogIsRefused := by
  intro i s h
  have hstart : (start (encodeWord i) s).cfg.admitted = false := by rw [(start_keeps _ s).cfg]; exact h
  obtain ⟨ha, _⟩ | ⟨_, hr⟩ := runBlock_cases (start (encodeWord i) s)
  · exact absurd (hstart.symm.trans ha) Bool.false_ne_true
  · exact (exec_eq_runBlock i s).trans hr

/-- Settles O20: the product of a 32-bit and a 25-bit number is below `2^57`. -/
theorem scaledValueIsTheWholeProduct : Obligations.ScaledValueIsTheWholeProduct := scale_toNat

/-- Settles O21: the model's natural division is rounding to the nearest, and the entry is there when that fits. -/
theorem reciprocalIsRoundedToNearest : Obligations.ReciprocalIsRoundedToNearest := by
  intro s hd
  refine ⟨LutEntry.ofScale_of_num_eq_zero hd, fun hn => ?_⟩
  have hq : ⌊(2 : ℚ) ^ 24 / |(s.num : ℚ) / (s.den : ℚ)| + 1 / 2⌋ = (s.recip : ℤ) := by
    rw [Scale.recip_eq_round hn, round_eq]
    rfl
  intro q
  rw [show q = (s.recip : ℤ) from hq, LutEntry.ofScale_of_num_ne_zero hd hn]
  refine ⟨fun hrep => ?_, fun hrep => if_neg (by omega)⟩
  refine ⟨_, if_pos (by omega), rfl, rfl, decide_eq_true_iff, ?_⟩
  rw [BitVec.toNat_ofNat, Nat.mod_eq_of_lt (by omega)]

/-- Settles O22: the reciprocal is off the exact one by at most a half, and not at all when that is an integer. -/
theorem scalerIsCloseToTheQuotient : Obligations.ScalerIsCloseToTheQuotient := by
  intro s e value he hn m
  have hr : (e.recip.toNat : ℚ) = (round s.exactRecip : ℤ) := by exact_mod_cast LutEntry.recip_of_ofScale he hn
  have hphys : ((scale value e.recip).toNat : ℚ) = value.toNat * (round s.exactRecip : ℤ) := by
    rw [scale_toNat, Nat.cast_mul, hr]
  have hquot : (value.toNat : ℚ) / m = value.toNat * s.exactRecip / 2 ^ 24 := by
    change _ = value.toNat * (2 ^ 24 / m) / 2 ^ 24
    ring
  rw [hphys, hquot]
  refine ⟨?_, ?_⟩
  · calc |(value.toNat : ℚ) * (round s.exactRecip : ℤ) / 2 ^ 24 - value.toNat * s.exactRecip / 2 ^ 24|
        = value.toNat / 2 ^ 24 * |s.exactRecip - (round s.exactRecip : ℤ)| := by
          rw [abs_sub_comm, ← sub_div, ← mul_sub, mul_div_right_comm, abs_mul, abs_of_nonneg (by positivity)]
      _ ≤ value.toNat / 2 ^ 24 * (1 / 2) := by gcongr; exact abs_sub_round _
      _ = value.toNat / 2 ^ 25 := by ring
  · rintro ⟨z, hz⟩
    have hexact : s.exactRecip = z := hz
    rw [hexact, round_intCast]

/-- Settles O30: a run of DECODE keeps its word in `CMD`, so its events update the statistics of its own index alone. -/
theorem decodeTouchesOnlyItsOwnStatistics : Obligations.DecodeTouchesOnlyItsOwnStatistics := by
  intro n s t m h hm
  obtain ⟨_, rfl⟩ := exec_eq_next h
  refine (settle_induction (P := fun u => decodeWord u.lat.cmd = .instr (.decode n) ∧ u.statAt m = s.statAt m) ?_
    ⟨by rw [start_cmd, decodeWord_encodeWord], State.statAt_congr (start_stat _ _) m⟩).2
  rintro u v ⟨hu, hs⟩ hv
  exact ⟨by rw [(advance_keeps hv).cmd]; exact hu, (advance_statAt_of_decode hu hm hv).trans hs⟩

/-- Settles O31: every entry that is handed over was offered, and what a decode offers with status OK it has just put into
the statistics. -/
theorem decodedEntriesLieWithinTheirStatistics : Obligations.DecodedEntriesLieWithinTheirStatistics := by
  intro i s t hm h e he
  obtain ⟨_, rfl⟩ := exec_eq_next h
  obtain ⟨evs, htrace, hw⟩ := settle_start_entries hm s
  rw [newEvents_of_trace htrace] at he
  exact hw e he

/-- What a DECODE of one valid read reports and records. -/
theorem decode_reports_one_read {n : Index} {s : State} {a : Xrsp} {rest : List Xrsp} {k : Nat}
    (ha : s.cfg.admitted = true) (hx : s.xrspIn = a :: rest) (hk : s.rspReady = k + 1)
    (hp : (s.cfg.lut n).pair = false) (hv : ValidReply a) :
    ∃ t, exec (.decode (BitVec.ofNat 8 n.val)) s = .next t ∧
      entriesOf (newEvents s t) =
        [decodeOutcome (s.cfg.lut n) n.val true (replyValue a) (updated (s.statAt n) (replyValue a))] ∧
      t.statAt n = updated (s.statAt n) (replyValue a) := by
  obtain ⟨l, h⟩ := decodeThatMakesOneRead n s a rest k ha hx hk (.inl hp)
  refine ⟨_, h, ?_, ?_⟩
  · rw [newEvents_of_trace rfl, if_pos hv]
    rfl
  · simp only [State.statAt, if_pos hv, Vector.get_eq_getElem, Vector.getElem_set_self]

/-- What a DECODE of two valid reads reports. -/
theorem decode_reports_two_reads {n : Index} {s : State} {a b : Xrsp} {rest : List Xrsp} {k : Nat}
    (ha : s.cfg.admitted = true) (hx : s.xrspIn = a :: b :: rest) (hk : s.rspReady = k + 1)
    (hp : (s.cfg.lut n).pair = true) (hv : ValidReply a) (hv' : ValidReply b) :
    ∃ t, exec (.decode (BitVec.ofNat 8 n.val)) s = .next t ∧
      entriesOf (newEvents s t) = [decodeOutcome (s.cfg.lut n) n.val true (replyValue a + 65536 * replyValue b)
        (updated (s.statAt n) (replyValue a + 65536 * replyValue b))] := by
  obtain ⟨l, h⟩ := decodeThatMakesTwoReads n s a b rest k ha hx hk hp hv
  refine ⟨_, h, ?_⟩
  rw [newEvents_of_trace rfl, if_pos hv']
  rfl

/-- Settles O19: under an admitted configuration an unknown index is not paired, no bitfield, and has reciprocal `2^24`. -/
theorem unknownRegisterPassesThroughUnscaled : Obligations.UnknownRegisterPassesThroughUnscaled := by
  intro n s a rest k ha hx hk hknown hv
  obtain ⟨hrows, _⟩ := (admissionIsTheFiveConditionsAndTheDocumentRows s.cfg).1 ha
  obtain ⟨hunknown, _⟩ := hrows n
  obtain ⟨hp, hb, hr⟩ := hunknown hknown
  obtain ⟨t, ht, hentries, hstat⟩ := decode_reports_one_read ha hx hk hp hv
  have h0 := a.rx0.isLt
  have h1 := a.rx1.isLt
  refine ⟨t, _, ht, hentries, rfl, ?_, hknown, ?_, ?_, hstat⟩
  · simp only [decodeOutcome, hb, Bool.false_eq_true, if_false]
  · simp only [decodeOutcome, replyValue, BitVec.toNat_ofNat]
    omega
  · simp only [decodeOutcome, replyValue, hb, hr, Bool.false_eq_true, if_false, BitVec.toNat_ofNat]
    omega

/-- Settles O23: an admitted configuration holds the document's two rows, the first unpaired and the second paired. -/
theorem documentExamplesDecode : Obligations.DocumentExamplesDecode := by
  intro s rest k ha hk
  obtain ⟨_, hvolt, hwatt⟩ := (admissionIsTheFiveConditionsAndTheDocumentRows s.cfg).1 ha
  refine ⟨fun hx => ?_, fun hx => ?_⟩
  · obtain ⟨t, ht, hentries, _⟩ := decode_reports_one_read (n := 0x04) ha hx hk (by rw [hvolt]) ⟨rfl, rfl⟩
    rw [hvolt] at hentries
    exact ⟨t, _, ht, hentries, rfl, rfl⟩
  · obtain ⟨t, ht, hentries⟩ := decode_reports_two_reads (n := 0x16) ha hx hk (by rw [hwatt]) ⟨rfl, rfl⟩ ⟨rfl, rfl⟩
    rw [hwatt] at hentries
    exact ⟨t, _, ht, hentries, rfl, rfl⟩

end Sys2Proof.Proofs
end

section
/-! SUPPORT. The entries reported since reset against the statistics (43_minmax_poll.md R105, R107): which events report nothing
and write nothing, and that the offer of an entry writes exactly the value that it reports. -/

namespace Sys2Proof.Machine

open Sys2Proof

/-- The entries reported since the last reset, the one on offer included. -/
def State.reportedEntries (s : State) : List Entry := entriesSinceReset s.trace ++ s.rsp.toList

theorem State.reportedValues_eq (n : Index) (s : State) :
    s.reportedValues n = s.reportedEntries.filterMap (decodedValue n) := rfl

/-! One more event in the record of the ports. -/

@[simp] theorem entriesSinceReset_snoc_reset (evs : List Event) : entriesSinceReset (evs ++ [.reset]) = [] :=
  List.foldl_append

@[simp] theorem entriesSinceReset_snoc_command (evs : List Event) (w : Word) :
    entriesSinceReset (evs ++ [.command w]) = entriesSinceReset evs := List.foldl_append

@[simp] theorem entriesSinceReset_snoc_request (evs : List Event) (q : Xreq) :
    entriesSinceReset (evs ++ [.request q]) = entriesSinceReset evs := List.foldl_append

@[simp] theorem entriesSinceReset_snoc_answer (evs : List Event) (a : Xrsp) :
    entriesSinceReset (evs ++ [.answer a]) = entriesSinceReset evs := List.foldl_append

@[simp] theorem entriesSinceReset_snoc_entry (evs : List Event) (e : Entry) :
    entriesSinceReset (evs ++ [.entry e]) = entriesSinceReset evs ++ [e] := List.foldl_append

theorem State.Issues.reportedEntries {s t : State} {ph : Phase} {q : Xreq} (h : s.Issues t ph q) :
    t.reportedEntries = s.reportedEntries := by
  simp [State.reportedEntries, h.trace, h.rsp]

theorem State.Offers.reportedEntries {s t : State} {e : Entry} (h : s.Offers t e) (hr : s.rsp = none) :
    t.reportedEntries = s.reportedEntries ++ [e] := by
  simp [State.reportedEntries, h.trace, h.rsp, hr]

/-- What reports nothing and writes nothing keeps the statistics those of the reported values. -/
theorem State.StatIsReported.of_eq {s t : State} (h : s.StatIsReported) (hs : t.stat = s.stat)
    (hr : t.reportedEntries = s.reportedEntries) : t.StatIsReported := by
  intro n
  rw [State.statAt_congr hs, State.reportedValues_eq, hr]
  exact h n

/-! The accepting of a word and an answer report nothing, and the taking of an entry reports it no second time. -/

theorem State.StatIsReported.accept {s : State} (h : s.StatIsReported) (w : Word) (ws : List Word) :
    (s.accept w ws).StatIsReported :=
  h.of_eq rfl (by simp [State.reportedEntries])

theorem State.StatIsReported.receive {s : State} (h : s.StatIsReported) (a : Xrsp) (rest : List Xrsp) :
    (s.receive a rest).StatIsReported :=
  h.of_eq rfl (by simp [State.reportedEntries])

theorem State.StatIsReported.handOver {s : State} {e : Entry} (h : s.StatIsReported) (he : s.rsp = some e) :
    (s.handOver e).StatIsReported :=
  h.of_eq rfl (by simp [State.reportedEntries, he])

theorem decodedValue_of_no_decode {e : Entry} (h : e.kind = .none ∨ e.kind = .raw) (n : Index) :
    decodedValue n e = none := by
  obtain h | h := h <;> simp [decodedValue, h]

theorem decodedValue_decodedEntry (e : LutEntry) (m n : Index) (last : Bool) (v : Word) (st : StatEntry) :
    decodedValue m (decodedEntry e n last v st) = if m = n then some v else none := by
  have hk : (decodedEntry e n last v st).kind = .scaled ∨ (decodedEntry e n last v st).kind = .bitfield := by
    cases hb : e.bitf <;> simp [decodedEntry, hb]
  have hi : (decodedEntry e n last v st).idx = idxBits m ↔ m = n :=
    ⟨fun h => (idxBits_injective h).symm, fun h => h ▸ rfl⟩
  simp only [decodedValue, hk, hi, true_and, show (decodedEntry e n last v st).status = .ok from rfl]
  rfl

/-- The values reported once `e` has been offered. -/
theorem State.Offers.reportedValues {s t : State} {e : Entry} (h : s.Offers t e) (hr : s.rsp = none) (n : Index) :
    t.reportedValues n = s.reportedValues n ++ (decodedValue n e).toList := by
  rw [State.reportedValues_eq, h.reportedEntries hr, List.filterMap_append, ← State.reportedValues_eq]
  cases hd : decodedValue n e <;> simp [hd]

/-- The offer of an entry updates the statistics with the value that it reports, and with no other. -/
theorem State.Offers.statIsReported {s t : State} {e : Entry} (h : s.Offers t e) (hr : s.rsp = none)
    (ha : StatAfter s t e) (hs : s.StatIsReported) : t.StatIsReported := by
  intro m
  rw [h.reportedValues hr, List.foldl_append, ← hs m]
  obtain ⟨hstat, hk⟩ | ⟨n, v, _, hstat, last, rfl⟩ := ha
  · rw [decodedValue_of_no_decode hk]
    exact State.statAt_congr hstat m
  · rw [decodedValue_decodedEntry, State.statAt_congr hstat, statUpdate_statAt]
    split
    · next hmn => subst hmn; rfl
    · rfl

/-- An answer that arrives in XFER1 or XFER2 leads to an offer, or to what reports nothing. -/
theorem answered1_statIsReported {s : State} (hs : s.StatIsReported) (hr : s.rsp = none) (a : Xrsp) :
    (answered1 a s).StatIsReported := by
  obtain ⟨e, ho, _, ha⟩ | ⟨q, _, hi, _⟩ | ⟨_, he⟩ := answered1_effect a s
  · exact ho.statIsReported hr ha hs
  · exact hs.of_eq hi.stat hi.reportedEntries
  · rw [he]; exact hs

theorem answered2_statIsReported {s : State} (hs : s.StatIsReported) (hr : s.rsp = none) (a : Xrsp) :
    (answered2 a s).StatIsReported := by
  obtain ⟨e, ho, _, ha⟩ | ⟨_, he⟩ := answered2_effect a s
  · exact ho.statIsReported hr ha hs
  · rw [he]; exact hs

theorem taken_statIsReported {s : State} (hs : s.StatIsReported) : (taken s).StatIsReported := by
  obtain ⟨q, _, hi, _⟩ | ⟨_, he⟩ := taken_effect s
  · exact hs.of_eq hi.stat hi.reportedEntries
  · rw [he]; exact hs.of_eq rfl rfl

/-- Nothing is on offer while an answer is awaited, so every event keeps the statistics those of the reported values. -/
theorem State.StatIsReported.advance {s t : State} (hs : s.StatIsReported) (hc : s.controlOk = true)
    (h : advance s = some t) : t.StatIsReported := by
  obtain ⟨a, rest, hp, _, rfl⟩ | ⟨a, rest, hp, _, rfl⟩ | ⟨e, k, _, he, _, rfl⟩ := advance_cases h
  · obtain ⟨q, _, _, hr⟩ := (controlOk_xfer1 hp).1 hc
    exact answered1_statIsReported (hs.receive a rest) hr a
  · obtain ⟨q, _, _, hr⟩ := (controlOk_xfer2 hp).1 hc
    exact answered2_statIsReported (hs.receive a rest) hr a
  · exact taken_statIsReported (hs.handOver he)

/-- The start of a word reports no decoded value: it offers at most a refusal. -/
theorem State.StatIsReported.start {s : State} (hs : s.StatIsReported) (hr : s.rsp = none) (w : Word) :
    (start w s).StatIsReported := by
  have hw : (s.latchWord w).StatIsReported := hs.of_eq rfl rfl
  obtain ⟨_, st, b, e⟩ | ⟨_, q, _, e⟩ | ⟨_, e⟩ := start_cases w s <;> rw [e]
  · exact (State.offer_offers _ _).statIsReported hr (.inl ⟨rfl, .inl rfl⟩) hw
  · exact hw.of_eq rfl (State.issue_issues _ _ _).reportedEntries
  · exact hw.of_eq rfl ((State.issue_issues _ _ _).reportedEntries (s := (s.latchWord w).setPoll 0#6))

/-- Statistics as reset leaves them are those of no reported value. -/
theorem statIsReported_of_reset {s : State} (hs : s.stat = Vector.replicate nreg StatEntry.atReset)
    (hr : s.reportedEntries = []) : s.StatIsReported := by
  intro n
  simp [State.statAt, hs, Vector.get_eq_getElem, State.reportedValues_eq, hr]

/-- Updates of index `n` are updates of its entry. -/
theorem statAt_foldl_statUpdate (n : Index) (vs : List Word) (s : State) :
    (vs.foldl (fun u v => u.statUpdate n v) s).statAt n = vs.foldl StatEntry.update (s.statAt n) := by
  induction vs generalizing s with
  | nil => rfl
  | cons v vs ih => rw [List.foldl_cons, ih, statUpdate_statAt, if_pos rfl, List.foldl_cons]

theorem statAt_foldl_statUpdate_of_ne {m n : Index} (h : m ≠ n) (vs : List Word) (s : State) :
    (vs.foldl (fun u v => u.statUpdate n v) s).statAt m = s.statAt m := by
  induction vs generalizing s with
  | nil => rfl
  | cons v vs ih => rw [List.foldl_cons, ih, statUpdate_statAt, if_neg h]

/-- A list of updates takes the largest and the smallest (43_minmax_poll.md R107). -/
theorem foldl_update_toNat (vs : List Word) (e : StatEntry) :
    (vs.foldl StatEntry.update e).max.toNat = vs.foldl (fun m v => Nat.max m v.toNat) e.max.toNat ∧
    (vs.foldl StatEntry.update e).min.toNat = vs.foldl (fun m v => Nat.min m v.toNat) e.min.toNat := by
  induction vs generalizing e with
  | nil => exact ⟨rfl, rfl⟩
  | cons v vs ih =>
    obtain ⟨hmin, hmax⟩ := update_toNat e v
    rw [List.foldl_cons, List.foldl_cons, List.foldl_cons, ← hmin, ← hmax]
    exact ih _

end Sys2Proof.Machine
end

section
namespace Sys2Proof.Proofs

open Sys2Proof Sys2Proof.Machine Sys2Proof.Claims

/-- Settles O28: every start and every event keeps the statistics those of the reported values, for nothing else is on offer
when an entry is offered; a reset empties both. -/
theorem statisticsAreDeterminedByTheReportedValues : Obligations.StatisticsAreDeterminedByTheReportedValues := by
  refine ⟨fun c sel => statIsReported_of_reset rfl rfl, fun s t hi hs hst => ?_⟩
  cases hr : s.resetPin with
  | true =>
    rw [step_reset hr hst]
    exact statIsReported_of_reset rfl (by simp [State.reportedEntries, applyReset, State.resetOf])
  | false =>
    refine (step_induction (P := fun u => u.Inv ∧ u.StatIsReported) hr hst ⟨hi, hs⟩ (fun w ws hp _ => ?_)
      (fun u v hu ha => ⟨hu.1.advance ha, hu.2.advance hu.1.control ha⟩)).2
    obtain ⟨_, hrsp⟩ := (controlOk_idle hp).1 hi.control
    exact ⟨hi.start hp w ws, (hs.accept w ws).start hrsp w⟩

/-- Settles O26: the updates of index `n` are a fold of `StatEntry.update` over its entry alone. -/
theorem statisticsAreTheExtremesOfTheValues : Obligations.StatisticsAreTheExtremesOfTheValues := by
  intro n s vs h
  obtain ⟨hmax, hmin⟩ := foldl_update_toNat vs StatEntry.atReset
  refine ⟨?_, ?_, fun m hm => statAt_foldl_statUpdate_of_ne hm vs s⟩
  · rw [statAt_foldl_statUpdate, h, hmax]
    rfl
  · rw [statAt_foldl_statUpdate, h, hmin]
    rfl

end Sys2Proof.Proofs
end

section
/-! SUPPORT. The decode of one index as a part of a poll (43_minmax_poll.md R108, R109, R110): how many answers it uses, what it
reports and requests, and that of the statistics it reads and writes the entry of its own index alone. -/

namespace Sys2Proof.Machine

open Sys2Proof Sys2Proof.Claims

theorem entriesOf_flatMap {α : Type} (f : α → List Event) (xs : List α) :
    entriesOf (xs.flatMap f) = xs.flatMap fun x => entriesOf (f x) := by
  induction xs with
  | nil => rfl
  | cons x xs ih => rw [List.flatMap_cons, entriesOf_append, ih, List.flatMap_cons]

theorem entriesOf_flatMap_of_singletons {α : Type} {f : α → List Event} {g : α → Entry} (h : ∀ x, entriesOf (f x) = [g x])
    (xs : List α) : entriesOf (xs.flatMap f) = xs.map g := by
  simp only [entriesOf_flatMap, h, List.map_eq_flatMap]

theorem requestsOf_append (xs ys : List Event) : requestsOf (xs ++ ys) = requestsOf xs ++ requestsOf ys := by
  induction xs with
  | nil => rfl
  | cons x xs ih => cases x <;> simp [requestsOf, ih]

theorem requestsOf_flatMap {α : Type} (f : α → List Event) (xs : List α) :
    requestsOf (xs.flatMap f) = xs.flatMap fun x => requestsOf (f x) := by
  induction xs with
  | nil => rfl
  | cons x xs ih => rw [List.flatMap_cons, requestsOf_append, ih, List.flatMap_cons]

theorem validReply_of_ok {a : Xrsp} {v : Half} (h : replyWord a = .ok v) : ValidReply a := by
  by_contra hv
  obtain ⟨e, he, _⟩ := replyWord_of_not_validReply hv
  cases h.symm.trans he

theorem not_validReply_of_error {a : Xrsp} {e : BusError} (h : replyWord a = .error e) : ¬ ValidReply a := by
  intro hv
  cases h.symm.trans (replyWord_of_validReply hv)

/-- How many reads the decode of index `n` makes when none fails (42_decode.md R97). -/
def cleanReads (c : Config) (n : Index) : Nat := if (c.lut n).pair = true then 2 else 1

theorem answersUsed_cons (c : Config) (n : Index) (a : Xrsp) (rest : List Xrsp) :
    answersUsed c n.val (a :: rest) = if (c.lut n).pair = true ∧ ValidReply a then 2 else 1 :=
  dif_pos n.isLt

theorem cleanReads_pos (c : Config) (n : Index) : 0 < cleanReads c n := by
  unfold cleanReads
  split <;> decide

theorem answersUsed_le (c : Config) (n : Index) (o : List Xrsp) : answersUsed c n.val o ≤ cleanReads c n := by
  cases o with
  | nil => exact (dif_pos n.isLt).trans_le (cleanReads_pos c n)
  | cons a rest =>
    rw [answersUsed_cons]
    split
    · next h => exact (if_pos h.1).ge
    · exact cleanReads_pos c n

/-- With as many answers as a clean decode uses, the decode ends. -/
theorem bigDecodeOne_of_answers {c : Config} {n : Index} {o : List Xrsp} (h : cleanReads c n ≤ o.length)
    (addr7 : BitVec 7) (st : Stat) (last : Bool) : ∃ r, bigDecodeOne c addr7 st n last o = some r := by
  cases hp : (c.lut n).pair with
  | false =>
    rw [cleanReads, hp] at h
    obtain ⟨a, rest, rfl⟩ := List.exists_cons_of_length_pos h
    exact ⟨_, bigDecodeOne_of_one_read (.inl hp) addr7 st last rest⟩
  | true =>
    rw [cleanReads, if_pos hp] at h
    obtain ⟨a, b, rest, rfl⟩ : ∃ a b rest, o = a :: b :: rest := by
      match o, h with
      | a :: b :: rest, _ => exact ⟨a, b, rest, rfl⟩
    by_cases hv : ValidReply a
    · exact ⟨_, bigDecodeOne_of_two_reads hp hv addr7 st last b rest⟩
    · exact ⟨_, bigDecodeOne_of_one_read (.inr hv) addr7 st last (b :: rest)⟩

section
variable {c : Config} {addr7 : BitVec 7} {st : Stat} {n : Index} {last : Bool} {o : List Xrsp} {r : BigResult}

theorem bigDecodeOne_rest (h : bigDecodeOne c addr7 st n last o = some r) : r.rest = o.drop (answersUsed c n.val o) := by
  obtain ⟨a, rest, rfl, ⟨e, hw, rfl⟩ | ⟨lo, _, hp, rfl⟩ | ⟨lo, a2, rest2, hw, hp, rfl, hr⟩⟩ := bigDecodeOne_cases h
  · rw [answersUsed_cons, if_neg (fun hv => not_validReply_of_error hw hv.2)]
    rfl
  · rw [answersUsed_cons, if_neg (by simp [hp])]
    rfl
  · rw [answersUsed_cons, if_pos ⟨hp, validReply_of_ok hw⟩]
    obtain ⟨e, _, rfl⟩ | ⟨hi, _, rfl⟩ := hr <;> rfl

/-- The one entry of a decode names its index and bears the `LAST` bit it was asked for, whether it succeeds or fails. -/
theorem bigDecodeOne_entry_idx (h : bigDecodeOne c addr7 st n last o = some r) :
    ∃ e, entriesOf r.events = [e] ∧ e.idx = idxBits n ∧ e.last = last := by
  obtain ⟨a, rest, _, ⟨e, _, rfl⟩ | ⟨lo, _, _, rfl⟩ | ⟨lo, a2, rest2, _, _, _, ⟨e, _, rfl⟩ | ⟨hi, _, rfl⟩⟩⟩ :=
    bigDecodeOne_cases h <;> exact ⟨_, rfl, rfl, rfl⟩

/-- A decode whose first reply is valid makes every read of a clean one. -/
theorem bigDecodeOne_requests (h : bigDecodeOne c addr7 st n last o = some r) (hv : ∀ a ∈ o.head?, ValidReply a) :
    requestsOf r.events = readRequest addr7 (wire n.val) ::
      if (c.lut n).pair = true then [readRequest addr7 (wire (n.val + 1))] else [] := by
  obtain ⟨a, rest, rfl, ⟨e, hw, _⟩ | ⟨lo, _, hp, rfl⟩ | ⟨lo, a2, rest2, _, hp, _, hr⟩⟩ := bigDecodeOne_cases h
  · exact absurd (hv a rfl) (not_validReply_of_error hw)
  · rw [if_neg (by simp [hp])]
    rfl
  · rw [if_pos hp]
    obtain ⟨e, _, rfl⟩ | ⟨hi, _, rfl⟩ := hr <;> rfl

/-- On other statistics with the same entry of index `n`, a decode of `n` does the same, and leaves their other entries. -/
theorem bigDecodeOne_congr (h : bigDecodeOne c addr7 st n last o = some r) {st' : Stat} (hn : st'.get n = st.get n) :
    bigDecodeOne c addr7 st' n last o = some ⟨st'.set n.val (r.stat.get n) n.isLt, r.events, r.rest⟩ := by
  have hself : st'.set n.val (st.get n) n.isLt = st' := by rw [← hn]; exact Vector.set_getElem_self n.isLt
  obtain ⟨a, rest, rfl, ⟨e, hw, rfl⟩ | ⟨lo, hw, hp, rfl⟩ | ⟨lo, a2, rest2, hw, hp, rfl, hr⟩⟩ := bigDecodeOne_cases h
  · simp only [bigDecodeOne, bigMemRead_cons, hw, hself]
  · simp [bigDecodeOne, bigMemRead_cons, hw, hp, bigFinish, hn, Vector.get_eq_getElem]
  · obtain ⟨e, hw2, rfl⟩ | ⟨hi, hw2, rfl⟩ := hr
    · simp only [bigDecodeOne, bigMemRead_cons, hw, hw2, if_pos hp, hself]
    · simp [bigDecodeOne, bigMemRead_cons, hw, hw2, hp, bigFinish, hn, Vector.get_eq_getElem]

end

end Sys2Proof.Machine
end

section
/-! SUPPORT. A poll is its 44 decodes, each on its own (43_minmax_poll.md R108, R109): the answers come to each index, and the big
step of POLLALL is put together from the decodes of the indices on the statistics before the poll. -/

namespace Sys2Proof.Machine

open Sys2Proof Sys2Proof.Claims

/-- How many reads a poll makes from index `i` on when none fails (43_minmax_poll.md R110). -/
def cleanReadsFrom (c : Config) (i : Nat) : Nat := (((List.finRange nreg).drop i).map (cleanReads c)).sum

theorem drop_finRange (n : Index) : (List.finRange nreg).drop n.val = n :: (List.finRange nreg).drop (n.val + 1) := by
  rw [List.drop_eq_getElem_cons (by simp), List.getElem_finRange]
  rfl

theorem cleanReadsFrom_index (c : Config) (n : Index) :
    cleanReadsFrom c n.val = cleanReads c n + cleanReadsFrom c (n.val + 1) := by
  rw [cleanReadsFrom, drop_finRange, List.map_cons, List.sum_cons, cleanReadsFrom]

theorem sum_cleanReads (c : Config) (ns : List Index) :
    (ns.map (cleanReads c)).sum = ns.length + (ns.filter fun n => (c.lut n).pair).length := by
  induction ns with
  | nil => rfl
  | cons n ns ih =>
    rw [List.map_cons, List.sum_cons, ih, cleanReads]
    cases hp : (c.lut n).pair <;> simp [hp] <;> omega

theorem cleanReadsFrom_zero (c : Config) : cleanReadsFrom c 0 = 44 + pairCount c := by
  rw [cleanReadsFrom, List.drop_zero, sum_cleanReads, List.length_finRange, pairCount]

/-- When a poll comes to index `i` it has used no more answers than a clean poll would have. -/
theorem answersFrom_eq_drop (c : Config) (o : List Xrsp) {i : Nat} (hi : i ≤ nreg) :
    ∃ used, answersFrom c o i = o.drop used ∧ used + cleanReadsFrom c i ≤ 44 + pairCount c := by
  induction i with
  | zero => exact ⟨0, rfl, by rw [cleanReadsFrom_zero, Nat.zero_add]⟩
  | succ i ih =>
    obtain ⟨used, ho, hu⟩ := ih (by omega)
    refine ⟨used + answersUsed c i (o.drop used), by rw [answersFrom, ho, List.drop_drop], ?_⟩
    have hle := answersUsed_le c ⟨i, hi⟩ (o.drop used)
    have hstep := cleanReadsFrom_index c ⟨i, hi⟩
    simp only at hle hstep
    omega

/-- An index has the answers it needs where a clean poll has, and its first answer is among those of a clean poll. -/
theorem answersFrom_index {c : Config} {o : List Xrsp} (h : 44 + pairCount c ≤ o.length) (n : Index) :
    cleanReads c n ≤ (answersFrom c o n.val).length ∧
      ∀ a ∈ (answersFrom c o n.val).head?, a ∈ o.take (44 + pairCount c) := by
  obtain ⟨used, ho, hu⟩ := answersFrom_eq_drop c o n.isLt.le
  have hpos := cleanReads_pos c n
  rw [cleanReadsFrom_index] at hu
  refine ⟨by rw [ho, List.length_drop]; omega, fun a ha => ?_⟩
  rw [ho, List.head?_drop] at ha
  obtain ⟨hlt, rfl⟩ := List.getElem?_eq_some_iff.1 ha
  exact List.mem_take_iff_getElem.2 ⟨used, by omega, rfl⟩

/-- The statistics when a poll comes to index `i`: the indices before it have been decoded with the results `rs`. -/
def statBefore (rs : Index → BigResult) (st : Stat) (i : Nat) : Stat :=
  Vector.ofFn fun m => if m.val < i then (rs m).stat.get m else st.get m

theorem statBefore_get (rs : Index → BigResult) (st : Stat) (i : Nat) (m : Index) :
    (statBefore rs st i).get m = if m.val < i then (rs m).stat.get m else st.get m := by
  simp [statBefore, Vector.get_eq_getElem]

theorem statBefore_zero (rs : Index → BigResult) (st : Stat) : statBefore rs st 0 = st := by
  ext i hi
  simp [statBefore, Vector.get_eq_getElem]

theorem statBefore_set (rs : Index → BigResult) (st : Stat) (n : Index) :
    (statBefore rs st n.val).set n.val ((rs n).stat.get n) n.isLt = statBefore rs st (n.val + 1) := by
  ext i hi : 1
  simp only [statBefore, Vector.getElem_set, Vector.getElem_ofFn]
  obtain hlt | rfl | hgt := lt_trichotomy i n.val
  · rw [if_neg hlt.ne', if_pos hlt, if_pos (by omega)]
  · rw [if_pos rfl, if_pos (by omega)]
  · rw [if_neg hgt.ne, if_neg (by omega), if_neg (by omega)]

/-- `rs n` is what the decode of `n` alone makes of the statistics `st` and of the answers that begin at its own first
transaction (43_minmax_poll.md R109). -/
def DecodedAlone (c : Config) (addr7 : BitVec 7) (st : Stat) (o : List Xrsp) (rs : Index → BigResult) : Prop :=
  ∀ n : Index, bigDecodeOne c addr7 st n (pollLast n) (answersFrom c o n.val) = some (rs n)

/-- The poll from index `i` on is put together from the decodes of its indices alone. -/
theorem bigPoll_of_decodedAlone {c : Config} {addr7 : BitVec 7} {st : Stat} {o : List Xrsp} {rs : Index → BigResult}
    (h : DecodedAlone c addr7 st o rs) {ns : List Index} : ∀ {i : Nat}, i ≤ nreg → ns = (List.finRange nreg).drop i →
    bigPoll c addr7 ns (statBefore rs st i) (answersFrom c o i) =
      some ⟨statBefore rs st nreg, ns.flatMap fun n => (rs n).events, answersFrom c o nreg⟩ := by
  induction ns with
  | nil =>
    intro i hi hns
    have hge : nreg ≤ i := by simpa using List.drop_eq_nil_iff.1 hns.symm
    obtain rfl : i = nreg := le_antisymm hi hge
    rfl
  | cons n ns ih =>
    intro i _ hns
    obtain ⟨rfl, hns'⟩ := drop_finRange_eq_cons hns
    have hget : (statBefore rs st n.val).get n = st.get n := by rw [statBefore_get, if_neg (lt_irrefl _)]
    have hone := bigDecodeOne_congr (h n) hget
    rw [statBefore_set, bigDecodeOne_rest (h n)] at hone
    have hrest := ih n.isLt hns'
    rw [answersFrom] at hrest
    simp only [bigPoll, hone, hrest, List.flatMap_cons]

/-- A POLLALL whose answers are there and whose entries are taken does what its big step says, and is over. Unlike
`Obligations.EveryCommandIsItsBigStep` this asks nothing of the control state before it. -/
theorem exec_pollall_of_bigPoll {s : State} {r : BigResult} (ha : s.cfg.admitted = true)
    (h : bigPoll s.cfg s.addr7 (List.finRange nreg) s.stat s.xrspIn = some r)
    (hk : (entriesOf r.events).length ≤ s.rspReady) :
    ∃ l p, exec .pollall s = .next ((s.ran r l).setPoll p).goIdle := by
  have hd : decodeWord (encodeWord .pollall) = .instr .pollall := decodeWord_encodeWord .pollall
  obtain ⟨l, p, hs⟩ := settle_poll (n := 0) (s := (s.latchCommand .pollall).setPoll 0#6) (r := r) rfl hd rfl h hk
  have hstart : start (encodeWord .pollall) s = decodeStart 0 ((s.latchCommand .pollall).setPoll 0#6) := by
    rw [start, hd]
    rfl
  refine ⟨l, p, ?_⟩
  rw [exec_eq_runBlock, runBlock_next (by rw [(start_keeps _ s).cfg]; exact ha), hstart, hs]
  rfl

/-- The run of a POLLALL that has an answer for each transaction and a host that takes 44 entries: its events are those of the
44 decodes, each on its own, one after the other. -/
theorem exec_pollall_by_index {s : State} (ha : s.cfg.admitted = true)
    (ho : 44 + pairCount s.cfg ≤ s.xrspIn.length) (hk : 44 ≤ s.rspReady) :
    ∃ (rs : Index → BigResult) (es : Index → Entry) (used : Nat) (l : Latches) (p : BitVec 6),
      used ≤ 44 + pairCount s.cfg ∧ DecodedAlone s.cfg s.addr7 s.stat s.xrspIn rs ∧
      (∀ n, entriesOf (rs n).events = [es n] ∧ (es n).idx = idxBits n ∧ (es n).last = pollLast n) ∧
      exec .pollall s = .next { s with
        phase := .idle
        xreq := none
        rsp := none
        xrspIn := s.xrspIn.drop used
        rspReady := s.rspReady - 44
        pollIdx := p
        lat := l
        stat := statBefore rs s.stat nreg
        trace := s.trace ++ (List.finRange nreg).flatMap fun n => (rs n).events } := by
  have hex : ∀ n : Index, ∃ r, bigDecodeOne s.cfg s.addr7 s.stat n (pollLast n) (answersFrom s.cfg s.xrspIn n.val) = some r :=
    fun n => bigDecodeOne_of_answers (answersFrom_index ho n).1 _ _ _
  choose rs hrs using hex
  choose es hes using fun n => bigDecodeOne_entry_idx (hrs n)
  have hpoll := bigPoll_of_decodedAlone hrs (Nat.zero_le _) rfl
  obtain ⟨used, hdrop, hused⟩ := answersFrom_eq_drop s.cfg s.xrspIn (i := nreg) le_rfl
  rw [statBefore_zero, List.drop_zero, answersFrom, hdrop] at hpoll
  have hlen : (entriesOf ((List.finRange nreg).flatMap fun n => (rs n).events)).length = 44 := by
    rw [entriesOf_flatMap_of_singletons (fun n => (hes n).1), List.length_map, List.length_finRange]
  obtain ⟨l, p, hexec⟩ := exec_pollall_of_bigPoll ha hpoll (hlen.trans_le hk)
  refine ⟨rs, es, used, l, p, by omega, hrs, hes, ?_⟩
  rw [hexec]
  simp only [State.ran, State.setPoll, State.goIdle, hlen]

end Sys2Proof.Machine
end

section
namespace Sys2Proof.Proofs

open Sys2Proof Sys2Proof.Machine Sys2Proof.Claims

/-- Settles O32: the 44 decodes of the poll report one entry each, and use no more answers than those of a clean poll. -/
theorem pollallEmitsFortyFourEntriesInOrder : Obligations.PollallEmitsFortyFourEntriesInOrder := by
  intro s k ha ho hk
  obtain ⟨rs, es, used, l, p, hused, _, hes, hexec⟩ := exec_pollall_by_index ha ho (by omega)
  have hentry : ∀ n : Index, ((es n).idx.toNat, (es n).last) = (n.val, n.val == 43) := by
    intro n
    obtain ⟨_, hidx, hlast⟩ := hes n
    rw [hidx, hlast, idxBits_toNat, pollLast]
  refine ⟨_, hexec, rfl, rfl, rfl, by simp only [hk, Nat.add_sub_cancel], ⟨used, hused, rfl⟩, ⟨_, rfl, ?_⟩,
    rfl, rfl, rfl, rfl, rfl⟩
  rw [entriesOf_flatMap_of_singletons (fun n => (hes n).1), List.map_map, ← List.map_coe_finRange_eq_range, List.map_map]
  exact List.map_congr_left fun n _ => hentry n

/-- Settles O33: where every transaction succeeds, each of the 44 decodes makes all its reads. -/
theorem cleanPollReadsEachIndexAndEachHighWord : Obligations.CleanPollReadsEachIndexAndEachHighWord := by
  intro s k ha ho hk hv
  obtain ⟨rs, es, _, l, p, _, hrs, _, hexec⟩ := exec_pollall_by_index ha ho (by omega)
  have hreq : ∀ n : Index, requestsOf (rs n).events = readRequest s.addr7 (BitVec.ofNat 8 (2 * n.val)) ::
      if (s.cfg.lut n).pair = true then [readRequest s.addr7 (BitVec.ofNat 8 (2 * n.val + 2))] else [] := by
    intro n
    rw [show 2 * n.val + 2 = 2 * (n.val + 1) from rfl, ← wire_eq, ← wire_eq]
    exact bigDecodeOne_requests (hrs n) fun a h => hv a ((answersFrom_index ho n).2 a h)
  have hlen : ∀ n : Index, (requestsOf (rs n).events).length = cleanReads s.cfg n := by
    intro n
    rw [hreq, cleanReads]
    split <;> rfl
  refine ⟨_, hexec, ?_, ?_⟩
  · rw [newEvents_of_trace rfl, requestsOf_flatMap, List.length_flatMap, ← cleanReadsFrom_zero, cleanReadsFrom,
      List.drop_zero]
    exact congrArg List.sum (List.map_congr_left fun n _ => hlen n)
  · rw [newEvents_of_trace rfl, requestsOf_flatMap]
    exact List.flatMap_congr fun n _ => hreq n

/-- Settles O34: the poll is put together from the decodes of the indices alone. -/
theorem pollDecodesEachIndexOnItsOwn : Obligations.PollDecodesEachIndexOnItsOwn := by
  intro s k ha ho hk
  obtain ⟨rs, es, _, l, p, _, hrs, hes, hexec⟩ := exec_pollall_by_index ha ho (by omega)
  refine ⟨_, hexec, fun n => ⟨rs n, es n, hrs n, (hes n).1, ?_, ?_⟩⟩
  · rw [newEvents_of_trace rfl, entriesOf_flatMap_of_singletons (fun n => (hes n).1), List.getElem?_map,
      List.getElem?_eq_getElem (by simp), List.getElem_finRange]
    rfl
  · exact (statBefore_get rs s.stat nreg n).trans (if_pos n.isLt)

end Sys2Proof.Proofs
end

section
/-! SUPPORT. No stop (60_exceptions.md R123; 70_reset_and_hazards.md R137, R149): a block in order with an admitted
configuration has a next step, and steps of the block and moves of the outside keep it one, so that every reachable state is
one. -/

namespace Sys2Proof.Machine

open Sys2Proof

/-- Neither of the two stops is met: the control state fits together, and the configuration is admitted. -/
theorem exists_step {s : State} (hc : s.controlOk = true) (ha : s.cfg.admitted = true) : ∃ t, step s = .next t := by
  cases hr : s.resetPin with
  | true => exact ⟨applyReset s, if_pos hr⟩
  | false =>
    by_cases hp : s.phase = .idle
    · rw [step_idle hr hc hp]
      cases hx : s.cmdIn with
      | nil => exact ⟨s, takeCommand_nil hx⟩
      | cons w ws =>
        have hstart : (start w (s.accept w ws)).cfg.admitted = true := by rw [(start_keeps _ _).cfg]; exact ha
        exact ⟨_, (takeCommand_cons hx).trans (runBlock_next hstart)⟩
    · exact ⟨_, (step_busy hr hc hp).trans (runBlock_next ha)⟩

theorem EnvMove.apply_cfg (m : EnvMove) (s : State) : (m.apply s).cfg = s.cfg := by cases m <;> rfl

/-- The invariant reads no input port, and a move of the outside changes nothing else. -/
theorem State.Inv.move {s : State} (h : s.Inv) (m : EnvMove) : (m.apply s).Inv := by
  obtain ⟨hcontrol, hpoll, horder, hstats⟩ := h
  cases m <;> exact ⟨hcontrol, hpoll, horder, hstats⟩

theorem step_cfg {s t : State} (h : step s = .next t) : t.cfg = s.cfg :=
  (Proofs.onlyResetWritesTheDeviceAddress s t h).1

theorem Reachable.inv_and_admitted {s : State} (h : Reachable s) : s.Inv ∧ s.cfg.admitted = true := by
  induction h with
  | start c sel hc => exact ⟨Proofs.resetSatisfiesTheMachineInvariant c sel, hc⟩
  | byStep s t _ hst ih =>
    obtain ⟨hinv, ha⟩ := ih
    exact ⟨hinv.step hst, by rw [step_cfg hst]; exact ha⟩
  | byMove s m _ ih =>
    obtain ⟨hinv, ha⟩ := ih
    exact ⟨hinv.move m, by rw [m.apply_cfg]; exact ha⟩

end Sys2Proof.Machine
end

section
/-! SUPPORT. A refusal whose entry is taken (60_exceptions.md R117, R118): the run from the offer of its entry to IDLE. -/

namespace Sys2Proof.Machine

open Sys2Proof Sys2Proof.Claims

/-- The entry of a refusal as R117 and R118 write it out. -/
theorem emptyEntry_eq_noValue_of_refusal (st : Status) (b : Byte) :
    emptyEntry st 0#6 b true = noValue st 0 b.toNat true := by
  rw [noValue, BitVec.ofNat_toNat, BitVec.setWidth_eq]
  rfl

/-- A refused command hands its one entry over and is over; a request that stands at the port is left alone, unlike in
`settle_refuseCommand`. -/
theorem runBlock_refuseCommand {s : State} {k : Nat} (ha : s.cfg.admitted = true) (hk : s.rspReady = k + 1)
    (hd : decodeWord s.lat.cmd ≠ .instr .pollall) (st : Status) (b : Byte) :
    ∃ l, runBlock (s.refuseCommand st b) = .next { s with
      phase := .idle
      rsp := none
      rspReady := k
      lat := l
      trace := s.trace ++ [.entry (noValue st 0 b.toNat true)] } := by
  have hover : settle (taken ((s.refuseCommand st b).handOver (emptyEntry st 0#6 b true))) =
      ((s.refuseCommand st b).handOver (emptyEntry st 0#6 b true)).goIdle := settle_taken_of_not_poll hd
  refine ⟨(s.refuseCommand st b).lat, ?_⟩
  rw [runBlock_next (s := s.refuseCommand st b) ha, settle_respond (s := s.refuseCommand st b) rfl rfl hk, hover,
    emptyEntry_eq_noValue_of_refusal]
  simp only [State.goIdle, State.handOver, State.refuseCommand, State.offer, hk, Nat.add_sub_cancel]

theorem start_of_illegal {w : Word} {why : IllegalWord} (h : decodeWord w = .illegal why) (s : State) :
    start w s = (s.latchWord w).refuseCommand .illegalCmd 0#8 := by
  rw [start, h]

theorem start_of_bad_index {i : Instr} {n : Byte} (hi : i = .rdreg n ∨ i = .decode n) (hn : indexOfByte n = none)
    (s : State) : start (encodeWord i) s = (s.latchCommand i).refuseCommand .badIndex n := by
  rw [start, decodeWord_encodeWord]
  obtain rfl | rfl := hi
  · simp only [rdregStart, hn, State.latchCommand]
  · simp only [decodeCmdStart, hn, State.latchCommand]

end Sys2Proof.Machine
end

section
namespace Sys2Proof.Proofs

open Sys2Proof Sys2Proof.Machine Sys2Proof.Claims

/-- Settles O52: a block in order meets neither stop, and its steps and the moves of the outside leave the configuration and
the order as they are. -/
theorem statesInOrderStepToStatesInOrder : Obligations.StatesInOrderStepToStatesInOrder := by
  intro s h ha
  obtain ⟨t, hst⟩ := exists_step h.control ha
  exact ⟨⟨t, hst, h.step hst, by rw [step_cfg hst]; exact ha⟩, fun m => ⟨h.move m, by rw [m.apply_cfg]; exact ha⟩⟩

/-- Settles O42: every reachable state is in order with an admitted configuration. -/
theorem everyReachableStateSteps : Obligations.EveryReachableStateSteps := by
  intro s h
  obtain ⟨hinv, ha⟩ := h.inv_and_admitted
  exact ⟨hinv, exists_step hinv.control ha⟩

/-- Settles O6: a word that selects no row is illegal, and the run of its refusal starts in an IDLE block with nothing on
offer. -/
theorem illegalWordIsRefusedWithOneEntry : Obligations.IllegalWordIsRefusedWithOneEntry := by
  intro s w ws k h ha hk hno
  obtain ⟨_, _, _, hillegal⟩ := wordSelectsTheRowItDecodesTo
  obtain ⟨why, hill⟩ := hillegal w hno
  obtain ⟨_, hrsp⟩ := (controlOk_idle h.idle).1 h.control
  obtain ⟨l, hrun⟩ := runBlock_refuseCommand (s := (s.accept w ws).latchWord w) ha hk (by simp [hill]) .illegalCmd 0#8
  refine ⟨l, ?_⟩
  rw [step_idle h.reset h.control h.idle, takeCommand_cons h.word, start_of_illegal hill, hrun]
  simp only [State.latchWord, State.accept, h.idle, hrsp, List.append_assoc]
  rfl

/-- Settles O16: an operand above 0x2B names no index, so the start of either command is the refusal. -/
theorem indexAbove43IsRefusedWithOneEntry : Obligations.IndexAbove43IsRefusedWithOneEntry := by
  intro n s k i hi hn ha hk
  have hpoll : decodeWord (encodeWord i) ≠ .instr .pollall := by
    rw [decodeWord_encodeWord]
    obtain rfl | rfl := hi <;> simp
  obtain ⟨l, hrun⟩ := runBlock_refuseCommand (s := s.latchCommand i) ha hk hpoll .badIndex n
  refine ⟨l, ?_⟩
  rw [exec_eq_runBlock, start_of_bad_index hi (indexOfByte_none hn), hrun]
  rfl

end Sys2Proof.Proofs
end

section
/-! SUPPORT. What the waits and the reset of 70_reset_and_hazards.md need: a step that leads to its own state can be repeated, an
event takes at most the first of the answers, and the address reset loads is the sum of R135. -/

namespace Sys2Proof.Machine

open Sys2Proof

/-- A state that a step leaves as it is stays as it is for any number of steps. -/
theorem run_of_step_self {M : Host.Core} {s : M.State} (h : M.step s = .next s) (k : Nat) : M.run k s = .next s := by
  induction k with
  | zero => rfl
  | succ k ih =>
    rw [Host.Core.run, h]
    exact ih

/-- A BUSY block out of reset and in order with an admitted configuration runs to its next wait. -/
theorem step_busy_settles {s : State} (hr : s.resetPin = false) (hc : s.controlOk = true) (ha : s.cfg.admitted = true)
    (hp : s.phase ≠ .idle) : step s = .next (settle s) :=
  (step_busy hr hc hp).trans (runBlock_next ha)

theorem State.ne_idle_of_xfer {s : State} (h : s.phase = .xfer1 ∨ s.phase = .xfer2) : s.phase ≠ .idle := by
  obtain h | h := h <;> simp [h]

/-- A block in order that waits for an answer has its request outstanding (20_memory.md R38 (a)). -/
theorem xreq_isSome_of_xfer {s : State} (hc : s.controlOk = true) (h : s.phase = .xfer1 ∨ s.phase = .xfer2) :
    s.xreq.isSome = true := by
  obtain hp | hp := h
  · obtain ⟨q, hq, _⟩ := (controlOk_xfer1 hp).1 hc
    simp [hq]
  · obtain ⟨q, hq, _⟩ := (controlOk_xfer2 hp).1 hc
    simp [hq]

/-! What follows an answer or a taking leaves the answers that have not been used. -/

theorem answered1_xrspIn (a : Xrsp) (s : State) : (answered1 a s).xrspIn = s.xrspIn := by
  obtain ⟨_, ho, _⟩ | ⟨_, _, hi, _⟩ | ⟨_, hs⟩ := answered1_effect a s
  · exact ho.xrspIn
  · exact hi.xrspIn
  · rw [hs]

theorem answered2_xrspIn (a : Xrsp) (s : State) : (answered2 a s).xrspIn = s.xrspIn := by
  obtain ⟨_, ho, _⟩ | ⟨_, hs⟩ := answered2_effect a s
  · exact ho.xrspIn
  · rw [hs]

theorem taken_xrspIn (s : State) : (taken s).xrspIn = s.xrspIn := by
  obtain ⟨_, _, hi, _⟩ | ⟨_, hs⟩ := taken_effect s
  · exact hi.xrspIn
  · rw [hs, State.goIdle_xrspIn]

theorem advance_xrspIn_suffix {s t : State} (h : advance s = some t) : t.xrspIn <:+ s.xrspIn := by
  obtain ⟨a, rest, _, hx, rfl⟩ | ⟨a, rest, _, hx, rfl⟩ | ⟨e, k, _, _, _, rfl⟩ := advance_cases h
  · rw [answered1_xrspIn, State.receive_xrspIn, hx]
    exact List.suffix_cons a rest
  · rw [answered2_xrspIn, State.receive_xrspIn, hx]
    exact List.suffix_cons a rest
  · rw [taken_xrspIn, State.handOver_xrspIn]

theorem settle_xrspIn_suffix (s : State) : (settle s).xrspIn <:+ s.xrspIn :=
  settle_induction (P := fun t => t.xrspIn <:+ s.xrspIn) (fun _ _ ht ha => (advance_xrspIn_suffix ha).trans ht)
    List.suffix_rfl

/-- The run of a block that waits for an answer uses at least the first of the answers that are there. -/
theorem settle_xrspIn_suffix_tail {s : State} {a : Xrsp} {rest : List Xrsp} (h : s.phase = .xfer1 ∨ s.phase = .xfer2)
    (hx : s.xrspIn = a :: rest) : (settle s).xrspIn <:+ rest := by
  obtain hp | hp := h
  · have hrun := settle_xrspIn_suffix (answered1 a (s.receive a rest))
    rwa [answered1_xrspIn, State.receive_xrspIn, ← settle_xfer1 hp hx] at hrun
  · have hrun := settle_xrspIn_suffix (answered2 a (s.receive a rest))
    rwa [answered2_xrspIn, State.receive_xrspIn, ← settle_xfer2 hp hx] at hrun

theorem addressOf_eq_ofNat (b : BitVec 7) (sel : BitVec 3) : addressOf b sel = BitVec.ofNat 7 (b.toNat + sel.toNat) :=
  BitVec.eq_of_toNat_eq (by rw [addressOf_toNat, BitVec.toNat_ofNat])

end Sys2Proof.Machine
end

section
namespace Sys2Proof.Proofs

open Sys2Proof Sys2Proof.Machine Sys2Proof.Claims

/-- Settles O44: a step of a block that waits for an answer runs it to the wait it is in. -/
theorem silentTransportHangsTheBlock : Obligations.SilentTransportHangsTheBlock := by
  intro s k hr hc ha hp hx
  have hstep := step_busy_settles hr hc ha (State.ne_idle_of_xfer hp)
  rw [settle_silent hp hx] at hstep
  exact run_of_step_self (M := core) hstep k

/-- Settles O45: a step of a block that offers its entry to a host that takes nothing runs it to the wait it is in. -/
theorem untakenEntryStallsTheBlock : Obligations.UntakenEntryStallsTheBlock := by
  intro s k hr hc ha hp hk
  have hstep := step_busy_settles hr hc ha (by simp [hp])
  rw [settle_stalled hp hk] at hstep
  exact run_of_step_self (M := core) hstep k

/-- Settles O46: the live transport has the answer of the outstanding request waiting, and the run of the block uses it. -/
theorem liveTransportMovesTheBlock : Obligations.LiveTransportMovesTheBlock := by
  intro s hlive hkeeps hr hc ha hp
  obtain ⟨a, rest, hx⟩ := List.exists_cons_of_ne_nil (hkeeps hlive (xreq_isSome_of_xfer hc hp))
  refine ⟨settle s, step_busy_settles hr hc ha (State.ne_idle_of_xfer hp), ?_⟩
  have hle := (settle_xrspIn_suffix_tail hp hx).length_le
  rw [hx, List.length_cons]
  omega

/-- Settles O39: the reset of the model is that of R135 and R136, with the address as a sum of numbers. -/
theorem resetPutsTheBlockInItsResetState : Obligations.ResetPutsTheBlockInItsResetState := by
  intro s hr
  have hstep : step s = .next (applyReset s) := if_pos hr
  refine ⟨Latches.atReset, ?_⟩
  rw [hstep, ← addressOf_eq_ofNat]
  rfl

end Sys2Proof.Proofs
end
